-- ==== Sys2Proof/Word.lean ====
section
/-!
DEFINITION. The machine's words: bytes and the 3-bit flag register's content (R7, R8).
-/

namespace Sys2Proof

/-- A register, a memory cell, the program counter or an operand byte: 8 bits, unsigned (R7, R21, R25, R50). -/
abbrev Byte := BitVec 8

/-- The content of the flag register: 3 bits, bit 2 = L, bit 1 = G, bit 0 = E (R29). -/
abbrev FlagBits := BitVec 3

end Sys2Proof
end

