-- ==== Sys2Proof/Config.lean ====
section
/-!
DEFINITION. The parameters of the hardware (R7): the opcode tuple `OP`, the reset value of the flag register, the
initial stack pointer and the size of the memory. The spec leaves no value free, so nothing here is opaque.
-/

namespace Sys2Proof

/-- The thirteen instructions as bare names: what the decode function answers for a recognised opcode byte (R2, R81). -/
inductive Kind where
  | hlt | ldi | prn | mul | add | cmp | push | pop | call | ret | jmp | jeq | jne
  deriving DecidableEq, Repr

/-- The thirteen kinds in the order of the opcode table (R79). -/
def Kind.all : List Kind :=
  [.hlt, .ldi, .prn, .mul, .add, .cmp, .push, .pop, .call, .ret, .jmp, .jeq, .jne]

/-- The parameter tuple `OP` = (`OP_HLT`, ..., `OP_JNE`) of opcode byte values (R79). -/
structure OpTable where
  hlt  : Byte
  ldi  : Byte
  prn  : Byte
  mul  : Byte
  add  : Byte
  cmp  : Byte
  push : Byte
  pop  : Byte
  call : Byte
  ret  : Byte
  jmp  : Byte
  jeq  : Byte
  jne  : Byte
  deriving DecidableEq, Repr

/-- The opcode byte the tuple gives a kind. -/
def OpTable.value (T : OpTable) : Kind → Byte
  | .hlt => T.hlt
  | .ldi => T.ldi
  | .prn => T.prn
  | .mul => T.mul
  | .add => T.add
  | .cmp => T.cmp
  | .push => T.push
  | .pop => T.pop
  | .call => T.call
  | .ret => T.ret
  | .jmp => T.jmp
  | .jeq => T.jeq
  | .jne => T.jne

/-- What every instantiation of the tuple must satisfy: thirteen pairwise distinct bytes, none of them 0xFF (R79, D6). -/
abbrev OpTable.Admissible (T : OpTable) : Prop :=
  (Kind.all.map T.value).Nodup ∧ (0xFF : Byte) ∉ Kind.all.map T.value

namespace Config

/-- The tuple this hardware takes. PRESUMED (log 2): the values are not in the source document; they are the column
"value" of R79 (D6), which the spec supplies from general knowledge. Unsafe for claims about particular bytes. -/
def OP : OpTable where
  hlt  := 0x01
  ldi  := 0x82
  prn  := 0x47
  mul  := 0xA2
  add  := 0xA0
  cmp  := 0xA7
  push := 0x45
  pop  := 0x46
  call := 0x50
  ret  := 0x11
  jmp  := 0x54
  jeq  := 0x55
  jne  := 0x56

/-- `FL_RESET` (R7, R32): no comparison recorded. The value is the spec's own decision D4 (log 3). -/
def FL_RESET : FlagBits := 0b000

/-- `SP_RESET` (R7, R24). -/
def SP_RESET : Byte := 0xF4

/-- `PC_RESET` (R7, R27), the spec's decision D5 (log 3). -/
def PC_RESET : Byte := 0x00

/-- `MEM_SIZE` (R7, R50): the number of memory cells. -/
abbrev MEM_SIZE : Nat := 256

end Config

end Sys2Proof
end

