-- ==== Sys2Proof/Machine/State.lean ====
section
/-!
DEFINITION. The complete state of the machine (R20), the reasons a step can stop, and the state after reset (R221).
Everything is plain data. Register values, the program counter and the flags are bit vectors because the spec treats
them as bits; the run state and the fault record are not words of the machine and are inductive types (R33, R193).
-/

namespace Sys2Proof.Machine

/-- The eight registers R0 to R7 by name (R21). -/
inductive Reg where
  | r0 | r1 | r2 | r3 | r4 | r5 | r6 | r7
  deriving DecidableEq, Repr

/-- The register file `x[0..7]` (R20, R21, R112). -/
structure RegFile where
  r0 : Byte
  r1 : Byte
  r2 : Byte
  r3 : Byte
  r4 : Byte
  r5 : Byte
  r6 : Byte
  r7 : Byte
  deriving DecidableEq, Repr

/-- The attached memory (R50) as the list of the cells that do not read as 0x00, by rising address (log 9). -/
abbrev Memory := List Host.Cell

/-- The sub-causes of `AddressFault` (R192). -/
inductive AddrSub where
  /-- 1, `OPERAND_FETCH` (R103). -/
  | operandFetch
  /-- 2, `REG_INDEX` (R104). -/
  | regIndex
  /-- 3, `STACK_LOW` (R160). -/
  | stackLow
  /-- 4, `STACK_HIGH` (R160). -/
  | stackHigh
  /-- 5, `RETURN_ADDR` (R163). -/
  | returnAddr
  /-- 6, `NEXT_PC` (R106). -/
  | nextPc
  deriving DecidableEq, Repr

/-- The fault record `rec` (R34, R193), one constructor for each of the three kinds (R190, R191, R192). -/
inductive FaultRec where
  /-- Code 1: `at_pc` and the byte that is no opcode. -/
  | unrecognizedOpcode (atPc opcode : Byte)
  /-- Code 2: `at_pc` and the two operand values. -/
  | arithmetic (atPc va vb : Byte)
  /-- Code 3: the sub-cause, `at_pc` and the offending address or index, an integer. -/
  | address (sub : AddrSub) (atPc : Byte) (addr : Int)
  deriving DecidableEq, Repr

/-- The run state (R33). -/
inductive RunState where
  | running
  | halted
  | faulted (r : FaultRec)
  deriving DecidableEq, Repr

/-- The state of the machine: the closed list of R20. -/
structure State where
  /-- The register file (R21). -/
  x : RegFile
  /-- The program counter (R25). -/
  pc : Byte
  /-- The flag register (R29). -/
  fl : FlagBits
  /-- The run state with the fault record (R33, R34). -/
  run : RunState
  /-- The attached memory (R50). -/
  mem : Memory
  /-- What the output sink has received, oldest first (R35). -/
  out : List Byte
  deriving DecidableEq, Repr

/-- Why the machine takes no step. The spec's own faults are NOT here: they are next states whose `run` is
`faulted` (R198). -/
inductive Fault where
  /-- Raised by `step` in a state whose `run` is `halted`: the run is over and there is no step (R100, R203). Safe. -/
  | halted
  /-- Raised by `step` in a state whose `run` is `faulted r`: the run is over and there is no step (R100, R203). Safe. -/
  | faulted (r : FaultRec)
  deriving DecidableEq, Repr

/-- What the model gives no meaning. -/
inductive Refusal where
  /-- Raised by `exec` for an instruction without a meaning; no arm of this model uses it. Safe. -/
  | notModelled (mnemonic : String)
  /-- Raised by `launch` for a program of more than 256 bytes: the loader's error, outside the core (R60, D21). Safe. -/
  | programTooLong (length : Nat)
  deriving DecidableEq, Repr

/-- The register file after reset: zero but for register 7 (R24). -/
def RegFile.reset : RegFile where
  r0 := 0
  r1 := 0
  r2 := 0
  r3 := 0
  r4 := 0
  r5 := 0
  r6 := 0
  r7 := Config.SP_RESET

/-- The state right after reset (R221), before the loader writes a program: every memory cell is 0x00 (R59). -/
def State.reset : State where
  x := RegFile.reset
  pc := Config.PC_RESET
  fl := Config.FL_RESET
  run := .running
  mem := []
  out := []

end Sys2Proof.Machine
end

