-- ==== Sys2Proof/Machine/Ops.lean ====
section
/-!
DEFINITION. The named operations over memory, registers, the program counter, the stack and the sink, and taking a
fault. Every instruction meaning is written over these.
-/

namespace Sys2Proof.Machine

/-- What an instruction's meaning answers. -/
abbrev Result := Host.Outcome State Fault Refusal

/-! ## Registers (R21, R22, R112) -/

/-- `get(index)`: no register is hard-wired and none is special-cased (R22). -/
def RegFile.get (x : RegFile) : Reg → Byte
  | .r0 => x.r0
  | .r1 => x.r1
  | .r2 => x.r2
  | .r3 => x.r3
  | .r4 => x.r4
  | .r5 => x.r5
  | .r6 => x.r6
  | .r7 => x.r7

/-- `set(index, value)` (R112). -/
def RegFile.set (x : RegFile) (r : Reg) (v : Byte) : RegFile :=
  match r with
  | .r0 => { x with r0 := v }
  | .r1 => { x with r1 := v }
  | .r2 => { x with r2 := v }
  | .r3 => { x with r3 := v }
  | .r4 => { x with r4 := v }
  | .r5 => { x with r5 := v }
  | .r6 => { x with r6 := v }
  | .r7 => { x with r7 := v }

/-- The register that PUSH, POP, CALL and RET use as the stack pointer: `SP_INDEX` = 7 (R7, R22). -/
abbrev Reg.sp : Reg := .r7

/-- Reads `x[r]`. -/
def State.reg (s : State) (r : Reg) : Byte := s.x.get r

/-- `x[r] <- v`. -/
def State.setReg (s : State) (r : Reg) (v : Byte) : State := { s with x := s.x.set r v }

/-- Reads the stack pointer `x[7]`. -/
def State.sp (s : State) : Byte := s.reg Reg.sp

/-- `pc <- target`. -/
def State.setPc (s : State) (target : Byte) : State := { s with pc := target }

/-- `fl <- f`: the whole flag register (R31, R115). -/
def State.setFl (s : State) (f : FlagBits) : State := { s with fl := f }

/-- `run <- Halted` (R130). -/
def State.halt (s : State) : State := { s with run := .halted }

/-- `out <- out ++ [v]` (R35, R132). -/
def State.emit (s : State) (v : Byte) : State := { s with out := s.out ++ [v] }

/-! ## Memory (R50, R51) -/

/-- What an address that the list does not hold reads as: memory is zero-initialized (R59). -/
def Memory.unlisted : Byte := 0x00

/-- `mem[a]`. -/
def Memory.read : Memory → Nat → Byte
  | [], _ => Memory.unlisted
  | c :: m, a => if c.1 = a then c.2 else Memory.read m a

/-- Puts a cell in its place by address. -/
def Memory.insert (c : Host.Cell) : Memory → Memory
  | [] => [c]
  | d :: m => if c.1 < d.1 then c :: d :: m else d :: Memory.insert c m

/-- `mem[a] <- v`, all other cells unchanged (R51): the cell goes out of the list, and back in unless the value is what
an unlisted address reads as. -/
def Memory.write (m : Memory) (a : Nat) (v : Byte) : Memory :=
  let others := m.filter fun c => c.1 != a
  if v = Memory.unlisted then others else Memory.insert (a, v) others

/-- The canonical form: addresses strictly rising and below 256, and no cell that reads as an unlisted address does. -/
abbrev Memory.wf (m : Memory) : Prop :=
  m.Pairwise (fun c d => c.1 < d.1) ∧ ∀ c ∈ m, c.1 < Config.MEM_SIZE ∧ c.2 ≠ Memory.unlisted

/-- `MemRead(a, 1)` (R10): an address that is a byte is always in range (R53). -/
def State.memRead (s : State) (a : Byte) : Byte := Memory.read s.mem a.toNat

/-- `MemWrite(a, 1, v)` (R10). -/
def State.memWrite (s : State) (a v : Byte) : State := { s with mem := Memory.write s.mem a.toNat v }

/-- Writes bytes at ascending addresses from `a`; nothing is written above address 255 (R53). -/
def Memory.store : Memory → Nat → List Byte → Memory
  | m, _, [] => m
  | m, a, b :: rest => if a < Config.MEM_SIZE then Memory.store (Memory.write m a b) (a + 1) rest else m

/-! ## Taking a fault (R10, R198); there is no return from one (R200) -/

/-- Fault entry: `run <- Faulted(rec)` and nothing else: nothing is saved, no vector, no mode change (R198). The only
way out of the state it gives is reset (R200, R220). -/
def raise (r : FaultRec) (s : State) : State := { s with run := .faulted r }

/-- The record of an `AddressFault` in this step: `at_pc` is the pc at the start of the step (R192, R193). -/
def addressFault (s : State) (sub : AddrSub) (addr : Int) : FaultRec := .address sub s.pc addr

/-- Goes on with the value of a check that succeeded, or takes the fault of one that failed in the state `s`, before any
change (R100, R197 levels 1 to 6). -/
def orRaise {α : Type} (s : State) (check : Except FaultRec α) (go : α → Result) : Result :=
  match check with
  | .ok v => go v
  | .error r => .next (raise r s)

/-- Why a state takes no step at all, if it takes none: `run` is terminal (R100, R203). The form of the stop is the
model's (log 1, DESIGN CHOICE, safe). -/
def stopped (s : State) : Option Fault :=
  match s.run with
  | .running => none
  | .halted => some .halted
  | .faulted r => some (.faulted r)

/-! ## Program counter (R106, R114) -/

/-- `advance(len)`: the sequential successor, or `NEXT_PC` with every other effect of the instruction kept and `pc` left
at the instruction (R106). -/
def advance (len : Nat) (s : State) : State :=
  if s.pc.toNat + len ≤ 255 then s.setPc (BitVec.ofNat 8 (s.pc.toNat + len))
  else raise (addressFault s .nextPc (s.pc.toNat + len)) s

/-- The pc after HLT: `pc + 1`, or `pc` unchanged at 255 without a fault (R130, D12). -/
def haltPc (pc : Byte) : Byte := if pc.toNat < 255 then pc + 1 else pc

/-! ## Stack (R160) -/

/-- The first half of `push_byte`: the state with the stack pointer decremented, or `STACK_LOW` (R160). -/
def stackDecrement (s : State) : Except FaultRec State :=
  if s.sp = 0x00 then .error (addressFault s .stackLow (-1)) else .ok (s.setReg Reg.sp (s.sp - 1))

/-- The second half of `push_byte`: the store at the new stack pointer (R160). -/
def stackStore (s : State) (v : Byte) : State := s.memWrite s.sp v

/-- The byte `pop_byte` reads: the one at the stack pointer (R160). -/
def stackTop (s : State) : Byte := s.memRead s.sp

/-- The incremented stack pointer of `pop_byte`, from what register 7 holds then, or `STACK_HIGH` (R160, R162). -/
def stackIncrement (s : State) (base : Byte) : Except FaultRec Byte :=
  if base = 0xFF then .error (addressFault s .stackHigh 256) else .ok (base + 1)

/-- CALL's return address `pc + 2`, or `RETURN_ADDR` when it does not fit a cell (R163). -/
def returnAddress (s : State) : Except FaultRec Byte :=
  if s.pc.toNat + 2 ≤ 255 then .ok (s.pc + 2) else .error (addressFault s .returnAddr (s.pc.toNat + 2))

end Sys2Proof.Machine
end

