-- ==== Sys2Proof/Machine/Flags.lean ====
section
/-!
DEFINITION. The flag register's values: what compare writes and what the conditional jumps test (R29 to R31, R146).
-/

namespace Sys2Proof.Machine

/-- E: bit 0 (R29). -/
def flagE : FlagBits := 0b001

/-- G: bit 1 (R29). -/
def flagG : FlagBits := 0b010

/-- L: bit 2 (R29). -/
def flagL : FlagBits := 0b100

/-- What CMP writes: E, G or L by the unsigned comparison of the first operand against the second (R142, R146). -/
def compareFlags (va vb : Byte) : FlagBits :=
  if va = vb then flagE else if vb.toNat < va.toNat then flagG else flagL

/-- DOC's "flag == equal": `fl` = 0b001 (R30, R181). -/
def flagIsEqual (f : FlagBits) : Bool := f == flagE

/-- The one-hot values, the only ones from the first CMP on (R30). -/
def flagOneHot (f : FlagBits) : Bool := f == flagE || f == flagG || f == flagL

/-- The legal values of the flag register: one-hot, or 0b000 before the first CMP (R30, R40). -/
def flagLegal (f : FlagBits) : Bool := f == 0b000 || flagOneHot f

end Sys2Proof.Machine
end

