-- ==== Sys2Proof/Machine/Operands.lean ====
section
/-!
DEFINITION. The operand forms: an operand byte as a register index (R104) or as a literal (R77). There are no
addressing modes (R77).
-/

namespace Sys2Proof.Machine

/-- The register a whole operand byte names; none for 8 to 255 (R77, R104): the byte is not masked. -/
def Reg.ofByte (b : Byte) : Option Reg :=
  match b.toNat with
  | 0 => some .r0
  | 1 => some .r1
  | 2 => some .r2
  | 3 => some .r3
  | 4 => some .r4
  | 5 => some .r5
  | 6 => some .r6
  | 7 => some .r7
  | _ => none

/-- The index of a register as an operand byte (R21). -/
def Reg.toByte : Reg → Byte
  | .r0 => 0
  | .r1 => 1
  | .r2 => 2
  | .r3 => 3
  | .r4 => 4
  | .r5 => 5
  | .r6 => 6
  | .r7 => 7

/-- `regidx(b)`: the register, or `REG_INDEX` with the offending byte (R104). -/
def regidx (s : State) (b : Byte) : Except FaultRec Reg :=
  match Reg.ofByte b with
  | some r => .ok r
  | none => .error (addressFault s .regIndex b.toNat)

/-- An instruction with one register operand: `opa` is checked before anything is done (R104). -/
def withReg (opa : Byte) (s : State) (go : Reg → Result) : Result := orRaise s (regidx s opa) go

/-- An instruction with two register operands: `opa` is checked before `opb` (R104). -/
def withRegs (opa opb : Byte) (s : State) (go : Reg → Reg → Result) : Result :=
  withReg opa s fun a => withReg opb s fun b => go a b

/-- A literal operand: the byte as it was read, zero-extended to the register's width, which is its own (R77). -/
def literal (b : Byte) : Byte := b

end Sys2Proof.Machine
end

