-- ==== Sys2Proof/Machine/Alu.lean ====
section
/-!
DEFINITION. The block alu_8bit: a pure function of an operation tag and two operand values (R113, R140 to R149).
-/

namespace Sys2Proof.Machine

/-- The tags at the ALU's input: the three that the decoder issues and the two dormant ones (R140, R147, R149).
A closed enumeration: there is no unsupported tag. -/
inductive AluOp where
  | mul | add | cmp | sub | div
  deriving DecidableEq, Repr

/-- What the ALU answers. An operation has a result, or flags, or a fault; the spec gives no value to the outputs an
operation does not have, and neither does the model (R140, R143, R148; log 12). -/
inductive AluOut where
  /-- The value written back to `x[a]` (MUL, ADD; SUB, DIV). -/
  | result (v : Byte)
  /-- The value written to `fl` (CMP). -/
  | flags (f : FlagBits)
  /-- `ArithmeticFault`: a zero divisor (R148, R191). -/
  | divideByZero
  deriving DecidableEq, Repr

/-- `alu(op, va, vb)`: sums, differences and products modulo 256 (R141), the unsigned comparison (R142), the unsigned
floor quotient with a fault on zero (R148). -/
def alu (op : AluOp) (va vb : Byte) : AluOut :=
  match op with
  | .mul => .result (va * vb)
  | .add => .result (va + vb)
  | .cmp => .flags (compareFlags va vb)
  | .sub => .result (va - vb)
  | .div => if vb = 0x00 then .divideByZero else .result (BitVec.ofNat 8 (va.toNat / vb.toNat))

/-- An ALU instruction on two registers: both values are read before the write; the result goes to `x[a]` or the flags
to `fl`, then the pc advances by 3 (R143 to R146). A fault of the ALU is taken before any change (R191, R197). -/
def aluInstruction (op : AluOp) (a b : Reg) (s : State) : Result :=
  match alu op (s.reg a) (s.reg b) with
  | .result v => .next (advance 3 (s.setReg a v))
  | .flags f => .next (advance 3 (s.setFl f))
  | .divideByZero => .next (raise (.arithmetic s.pc (s.reg a) (s.reg b)) s)

end Sys2Proof.Machine
end

