-- ==== Sys2Proof/Machine/DataSystem.lean ====
section
/-!
DEFINITION. HLT, LDI, PRN (41_data_and_system.md).
-/

namespace Sys2Proof.Machine

/-- HLT (R130): the run is over; the pc moves on unless it is 255. -/
def execHlt (s : State) : Result := .next ((s.setPc (haltPc s.pc)).halt)

/-- LDI a, imm (R131). -/
def execLdi (opa imm : Byte) (s : State) : Result :=
  withReg opa s fun a => .next (advance 3 (s.setReg a (literal imm)))

/-- PRN a (R132): the value goes to the sink before the pc advances. -/
def execPrn (opa : Byte) (s : State) : Result :=
  withReg opa s fun a => .next (advance 2 (s.emit (s.reg a)))

end Sys2Proof.Machine
end

