-- ==== Sys2Proof/Machine/Arithmetic.lean ====
section
/-!
DEFINITION. MUL, ADD, CMP (42_alu.md).
-/

namespace Sys2Proof.Machine

/-- MUL a, b (R144). -/
def execMul (opa opb : Byte) (s : State) : Result :=
  withRegs opa opb s fun a b => aluInstruction .mul a b s

/-- ADD a, b (R145). -/
def execAdd (opa opb : Byte) (s : State) : Result :=
  withRegs opa opb s fun a b => aluInstruction .add a b s

/-- CMP a, b (R146). -/
def execCmp (opa opb : Byte) (s : State) : Result :=
  withRegs opa opb s fun a b => aluInstruction .cmp a b s

end Sys2Proof.Machine
end

