-- ==== Sys2Proof/Machine/StackCall.lean ====
section
/-!
DEFINITION. PUSH, POP, CALL, RET (43_stack_and_call.md). The sequences are taken literally, so an explicit register 7
is the decremented stack pointer in PUSH and CALL, and ends as the popped byte plus 1 in POP (D16).
-/

namespace Sys2Proof.Machine

/-- PUSH a (R161): decrement, then store `x[a]` read after the decrement. -/
def execPush (opa : Byte) (s : State) : Result :=
  withReg opa s fun a =>
    orRaise s (stackDecrement s) fun s1 => .next (advance 2 (stackStore s1 (s1.reg a)))

/-- What register 7 holds once `x[a] <- v` is done: the popped byte for `a` = 7, else the stack pointer (R162). -/
def popBase (a : Reg) (s : State) : Byte := if a = Reg.sp then stackTop s else s.sp

/-- POP a (R162): the popped byte into `x[a]`, then register 7 gets what it then holds plus 1. -/
def execPop (opa : Byte) (s : State) : Result :=
  withReg opa s fun a =>
    orRaise s (stackIncrement s (popBase a s)) fun sp =>
      .next (advance 2 ((s.setReg a (stackTop s)).setReg Reg.sp sp))

/-- CALL a (R163): the return address is checked before the stack; the target is read after the decrement. -/
def execCall (opa : Byte) (s : State) : Result :=
  withReg opa s fun a =>
    orRaise s (returnAddress s) fun ret =>
      orRaise s (stackDecrement s) fun s1 => .next ((stackStore s1 ret).setPc (s1.reg a))

/-- RET (R164): the popped byte into the pc. -/
def execRet (s : State) : Result :=
  orRaise s (stackIncrement s s.sp) fun sp => .next ((s.setReg Reg.sp sp).setPc (stackTop s))

end Sys2Proof.Machine
end

