-- ==== Sys2Proof/Machine/Branch.lean ====
section
/-!
DEFINITION. JMP, JEQ, JNE (44_branch.md).
-/

namespace Sys2Proof.Machine

/-- The pc update of a transfer: the target when it is taken, else the sequential advance, never both (R107, R181). -/
def jumpIf (taken : Bool) (a : Reg) (s : State) : State := if taken then s.setPc (s.reg a) else advance 2 s

/-- JMP a (R180). -/
def execJmp (opa : Byte) (s : State) : Result :=
  withReg opa s fun a => .next (jumpIf true a s)

/-- JEQ a (R181): the operand is checked whether or not the branch is taken. -/
def execJeq (opa : Byte) (s : State) : Result :=
  withReg opa s fun a => .next (jumpIf (flagIsEqual s.fl) a s)

/-- JNE a (R182): the complement of JEQ. -/
def execJne (opa : Byte) (s : State) : Result :=
  withReg opa s fun a => .next (jumpIf (!flagIsEqual s.fl) a s)

end Sys2Proof.Machine
end

