-- ==== Sys2Proof/Syntax.lean ====
section
/-!
DEFINITION. The instruction set (R2, R76, R78): one constructor for each row of spec/opcode_table.json.
An operand is kept as the whole byte that was read (R77, R83): a byte above 7 in a register position is a recognised
instruction whose execution raises `AddressFault(REG_INDEX)` (R104), not an unrecognised opcode.
-/

namespace Sys2Proof

/-- The thirteen instructions with their operand bytes `opa` and `opb` (R11, R76). -/
inductive Instr where
  /-- HLT (R130). -/
  | hlt
  /-- LDI a, imm (R131): register index, literal. -/
  | ldi (opa imm : Byte)
  /-- PRN a (R132). -/
  | prn (opa : Byte)
  /-- MUL a, b (R144). -/
  | mul (opa opb : Byte)
  /-- ADD a, b (R145). -/
  | add (opa opb : Byte)
  /-- CMP a, b (R146). -/
  | cmp (opa opb : Byte)
  /-- PUSH a (R161). -/
  | push (opa : Byte)
  /-- POP a (R162). -/
  | pop (opa : Byte)
  /-- CALL a (R163). -/
  | call (opa : Byte)
  /-- RET (R164). -/
  | ret
  /-- JMP a (R180). -/
  | jmp (opa : Byte)
  /-- JEQ a (R181). -/
  | jeq (opa : Byte)
  /-- JNE a (R182). -/
  | jne (opa : Byte)
  deriving DecidableEq, Repr

/-- The name of an instruction without its operands (R81). -/
def Instr.kind : Instr → Kind
  | .hlt => .hlt
  | .ldi _ _ => .ldi
  | .prn _ => .prn
  | .mul _ _ => .mul
  | .add _ _ => .add
  | .cmp _ _ => .cmp
  | .push _ => .push
  | .pop _ => .pop
  | .call _ => .call
  | .ret => .ret
  | .jmp _ => .jmp
  | .jeq _ => .jeq
  | .jne _ => .jne

/-- The operand bytes of an instruction in ascending address order (R75, R76). -/
def Instr.operands : Instr → List Byte
  | .hlt => []
  | .ldi a imm => [a, imm]
  | .prn a => [a]
  | .mul a b => [a, b]
  | .add a b => [a, b]
  | .cmp a b => [a, b]
  | .push a => [a]
  | .pop a => [a]
  | .call a => [a]
  | .ret => []
  | .jmp a => [a]
  | .jeq a => [a]
  | .jne a => [a]

/-- The operand bytes that stand in a register-index position, `opa` before `opb` (R76): the literal of LDI is not one. -/
def Instr.registerOperands : Instr → List Byte
  | .hlt => []
  | .ldi a _ => [a]
  | .prn a => [a]
  | .mul a b => [a, b]
  | .add a b => [a, b]
  | .cmp a b => [a, b]
  | .push a => [a]
  | .pop a => [a]
  | .call a => [a]
  | .ret => []
  | .jmp a => [a]
  | .jeq a => [a]
  | .jne a => [a]

end Sys2Proof
end

