-- ==== Sys2Proof/Machine/Dispatch.lean ====
section
/-!
DEFINITION. One arm for each constructor of Instr (R105): the register-index check and the execute phase.
-/

namespace Sys2Proof.Machine

def exec (i : Instr) (s : State) : Host.Outcome State Fault Refusal :=
  match i with
  | .hlt => Sys2Proof.Machine.execHlt s
  | .ldi opa imm => Sys2Proof.Machine.execLdi opa imm s
  | .prn opa => Sys2Proof.Machine.execPrn opa s
  | .mul opa opb => Sys2Proof.Machine.execMul opa opb s
  | .add opa opb => Sys2Proof.Machine.execAdd opa opb s
  | .cmp opa opb => Sys2Proof.Machine.execCmp opa opb s
  | .push opa => Sys2Proof.Machine.execPush opa s
  | .pop opa => Sys2Proof.Machine.execPop opa s
  | .call opa => Sys2Proof.Machine.execCall opa s
  | .ret => Sys2Proof.Machine.execRet s
  | .jmp opa => Sys2Proof.Machine.execJmp opa s
  | .jeq opa => Sys2Proof.Machine.execJeq opa s
  | .jne opa => Sys2Proof.Machine.execJne opa s

end Sys2Proof.Machine
end

