-- ==== Sys2Proof/WellFormed.lean ====
section
/-!
DEFINITION. Well-formed instructions: every byte in a register-index position names one of the eight registers (R77, R104).
An ill-formed instruction still decodes and still has a meaning: it raises `AddressFault(REG_INDEX)`.
-/

namespace Sys2Proof

/-- "A register index is the whole byte and must be in 0 to 7" (R77): no masking to three bits. -/
def isRegisterIndex (b : Byte) : Bool := decide (b.toNat ≤ 7)

/-- Every register operand of the instruction is a register index; the literal of LDI is not checked (R83, R104). -/
def Instr.wellFormed (i : Instr) : Bool := i.registerOperands.all isRegisterIndex

end Sys2Proof
end

