-- ==== Sys2Proof/Decode.lean ====
section
/-!
DEFINITION. The instruction decoder (R75 to R83) and, after it, the encoder, both over the parameter tuple `OP`
(R79, D6) with `Config.OP` as the hardware's own. Decoding is total on every list of bytes and rejects by name.
-/

namespace Sys2Proof

/-- The decode function on one byte, by a match of the whole byte against the thirteen values (R80, R81);
`none` is `Unrecognized`. -/
def decodeKindWith (T : OpTable) (b : Byte) : Option Kind :=
  Kind.all.find? fun k => T.value k == b

/-- `decode` of R81 with this hardware's opcode values. -/
def decodeKind (b : Byte) : Option Kind := decodeKindWith Config.OP b

/-- How an instruction is made of its operand bytes: the formats `OP`, `OP_R`, and `OP_R_R` or `OP_R_I` (R76). -/
inductive Shape where
  | op (i : Instr)
  | opA (make : Byte → Instr)
  | opAB (make : Byte → Byte → Instr)

/-- The format of each kind (R76, R78). -/
def Kind.shape : Kind → Shape
  | .hlt => .op .hlt
  | .ldi => .opAB .ldi
  | .prn => .opA .prn
  | .mul => .opAB .mul
  | .add => .opAB .add
  | .cmp => .opAB .cmp
  | .push => .opA .push
  | .pop => .opA .pop
  | .call => .opA .call
  | .ret => .op .ret
  | .jmp => .opA .jmp
  | .jeq => .opA .jeq
  | .jne => .opA .jne

/-- The length in bytes of each kind, opcode byte included (R78). -/
def Kind.length : Kind → Nat
  | .hlt => 1
  | .ldi => 3
  | .prn => 2
  | .mul => 3
  | .add => 3
  | .cmp => 3
  | .push => 2
  | .pop => 2
  | .call => 2
  | .ret => 1
  | .jmp => 2
  | .jeq => 2
  | .jne => 2

/-- Why a list of bytes is no instruction. -/
inductive DecodeError where
  /-- The first byte is none of the thirteen opcode values (R82). -/
  | unrecognizedOpcode (opcode : Byte)
  /-- The list ends before byte `n` of the instruction; byte 0 is the opcode byte (R75). -/
  | missingByte (n : Nat)
  deriving DecidableEq, Repr

/-- Takes the operand bytes a format uses from the bytes after the opcode (R75, R76). -/
def Shape.take : Shape → List Byte → Except DecodeError (Instr × List Byte)
  | .op i, rest => .ok (i, rest)
  | .opA make, a :: rest => .ok (make a, rest)
  | .opA _, [] => .error (.missingByte 1)
  | .opAB make, a :: b :: rest => .ok (make a b, rest)
  | .opAB _, [_] => .error (.missingByte 2)
  | .opAB _, [] => .error (.missingByte 1)

/-- Decodes the instruction at the head of a list of bytes in ascending address order, and gives the bytes after it
(R54, R75, R83). -/
def decodeWith (T : OpTable) : List Byte → Except DecodeError (Instr × List Byte)
  | [] => .error (.missingByte 0)
  | b :: rest =>
    match decodeKindWith T b with
    | none => .error (.unrecognizedOpcode b)
    | some k => k.shape.take rest

/-- The decoder with this hardware's opcode values. -/
def decode (bytes : List Byte) : Except DecodeError (Instr × List Byte) := decodeWith Config.OP bytes

/-- Byte `k` of a word numbered as spec/opcode_table.json numbers it: bit 0 is the least significant bit of byte 0. -/
def byteOfWord (w k : Nat) : Byte := BitVec.ofNat 8 (w >>> (8 * k))

/-- The three bytes at ascending addresses of an instruction word of `nbits` bits; the bits above are 0. -/
def bytesOfWord (nbits w : Nat) : List Byte :=
  let v := w % 2 ^ nbits
  [byteOfWord v 0, byteOfWord v 1, byteOfWord v 2]

/-- The instruction the decoder reads from an instruction word. -/
def decodeTableWord (nbits w : Nat) : Option Instr :=
  match decode (bytesOfWord nbits w) with
  | .ok (i, _) => some i
  | .error _ => none

/-- The encoder: the opcode byte of the tuple, then the operand bytes in ascending address order (R75, R76, R79). -/
def encodeWith (T : OpTable) (i : Instr) : List Byte := T.value i.kind :: i.operands

/-- The bytes of an instruction with this hardware's opcode values. -/
def encode (i : Instr) : List Byte := encodeWith Config.OP i

end Sys2Proof
end

