-- ==== Sys2Proof/Machine/Fetch.lean ====
section
/-!
DEFINITION. The fetch and decode phases of a step (R100 to R103).
-/

namespace Sys2Proof.Machine

/-- The operand byte at `pc + k`, or `OPERAND_FETCH` when that address is above 255 (R53, R103). -/
def fetchOperand (s : State) (k : Nat) : Except FaultRec Byte :=
  if s.pc.toNat + k ≤ 255 then .ok (s.memRead (BitVec.ofNat 8 (s.pc.toNat + k)))
  else .error (addressFault s .operandFetch (s.pc.toNat + k))

/-- The operand bytes a format uses, in ascending address order, and no other byte (R103, D10). -/
def fetchOperands (s : State) : Shape → Except FaultRec Instr
  | .op i => .ok i
  | .opA make =>
    match fetchOperand s 1 with
    | .error r => .error r
    | .ok a => .ok (make a)
  | .opAB make =>
    match fetchOperand s 1 with
    | .error r => .error r
    | .ok a =>
      match fetchOperand s 2 with
      | .error r => .error r
      | .ok b => .ok (make a b)

/-- Opcode fetch, decode, operand fetch: the instruction at the pc, or the fault that stops the step before it is
executed (R101, R102, R103). -/
def fetchInstr (s : State) : Except FaultRec Instr :=
  match decodeKind (s.memRead s.pc) with
  | none => .error (.unrecognizedOpcode s.pc (s.memRead s.pc))
  | some k => fetchOperands s k.shape

end Sys2Proof.Machine
end

