-- ==== Sys2Proof/Machine/Step.lean ====
section
/-!
DEFINITION. One step of the machine (R100): no step in a terminal state, else fetch and decode, then execute.
-/

namespace Sys2Proof.Machine

/-- `step` of R100. A fault of the fetch or decode phase is taken like any other (R198). -/
def step (s : State) : Host.Outcome State Fault Refusal :=
  match stopped s with
  | some f => .fault f
  | none => orRaise s (fetchInstr s) fun i => exec i s

/-- The state with an instruction word of `nbits` bits stored at the pc, the bits above being 0, up to the longest
instruction's three bytes. No byte is stored above address 255, and nothing but memory is changed (log 8). -/
def State.withFetchWord (s : State) (nbits w : Nat) : State :=
  { s with mem := Memory.store s.mem s.pc.toNat (bytesOfWord nbits w) }

end Sys2Proof.Machine
end

