-- ==== Sys2Proof/Machine/Blocks.lean ====
section
/-!
DEFINITION. The eight blocks of CORE as the functions R110 to R119 give them, with their ports' widths, and their
composition into one step (`Block.step`). The architectural meaning is `step`; an obligation states that the composition
gives the same outcome in every state. The ports and the decomposition are the spec's own (D24).
-/

namespace Sys2Proof.Machine

/-! ## instruction_decoder (R111) -/

/-- The decoder's control word. -/
structure ControlWord where
  len : BitVec 2
  aIsReg : Bool := false
  bIsReg : Bool := false
  bIsImm : Bool := false
  isAlu : Bool := false
  aluOp : Option AluOp := none
  isPush : Bool := false
  isPop : Bool := false
  isCall : Bool := false
  isRet : Bool := false
  isJump : Bool := false
  isCond : Bool := false
  condSense : Bool := false
  regWe : Bool := false
  flWe : Bool := false
  prn : Bool := false
  haltReq : Bool := false
  deriving DecidableEq, Repr

/-- The table "control word per kind" of R111. -/
def Block.control : Kind → ControlWord
  | .hlt => { len := 1, haltReq := true }
  | .ldi => { len := 3, aIsReg := true, bIsImm := true, regWe := true }
  | .prn => { len := 2, aIsReg := true, prn := true }
  | .mul => { len := 3, aIsReg := true, bIsReg := true, isAlu := true, aluOp := some .mul, regWe := true }
  | .add => { len := 3, aIsReg := true, bIsReg := true, isAlu := true, aluOp := some .add, regWe := true }
  | .cmp => { len := 3, aIsReg := true, bIsReg := true, isAlu := true, aluOp := some .cmp, flWe := true }
  | .push => { len := 2, aIsReg := true, isPush := true }
  | .pop => { len := 2, aIsReg := true, isPop := true, regWe := true }
  | .call => { len := 2, aIsReg := true, isCall := true, isJump := true }
  | .ret => { len := 1, isRet := true, isJump := true }
  | .jmp => { len := 2, aIsReg := true, isJump := true }
  | .jeq => { len := 2, aIsReg := true, isCond := true, condSense := true }
  | .jne => { len := 2, aIsReg := true, isCond := true, condSense := false }

/-- `n_operands`: the number of operand bytes, `len - 1` (R103, R111). -/
def ControlWord.nOperands (c : ControlWord) : BitVec 2 := c.len - 1

/-- `fault_reg_index` with the offending byte: a byte in a register position exceeds 7, `opa` first (R104, R111). -/
def Block.regIndexFault (c : ControlWord) (opa opb : Byte) : Option Byte :=
  if c.aIsReg && decide (7 < opa.toNat) then some opa
  else if c.bIsReg && decide (7 < opb.toNat) then some opb
  else none

/-! ## register_file_8x8 (R112) -/

/-- The register a 3-bit index port names: it can only name an existing one. -/
def Reg.ofPort (p : BitVec 3) : Reg :=
  match p.toNat with
  | 0 => .r0
  | 1 => .r1
  | 2 => .r2
  | 3 => .r3
  | 4 => .r4
  | 5 => .r5
  | 6 => .r6
  | _ => .r7

/-- A read port: `ra[2:0] -> va[7:0]`. -/
def Block.readPort (x : RegFile) (ra : BitVec 3) : Byte := x.get (Reg.ofPort ra)

/-- The two writes committed together: the explicit one and the stack-pointer one, which wins (R112). -/
def Block.registerFile (x : RegFile) (we : Bool) (wa : BitVec 3) (wd : Byte) (spWe : Bool) (spWd : Byte) : RegFile :=
  let x1 := if we then x.set (Reg.ofPort wa) wd else x
  if spWe then x1.set Reg.sp spWd else x1

/-! ## pc_counter (R114) -/

/-- `pc + k` as a 9-bit sum, so that 256 and 257 are not 0 and 1 (R110, R114). -/
def Block.pcPlus (pc : Byte) (k : BitVec 2) : BitVec 9 := pc.zeroExtend 9 + k.zeroExtend 9

/-- `fault_next_pc`: bit 8 of the sum, when the instruction neither sets the pc nor is HLT. -/
def Block.nextPcFault (c : ControlWord) (pcSet : Bool) (pcPlusLen : BitVec 9) : Bool :=
  pcPlusLen.getLsbD 8 && !pcSet && !c.haltReq

/-- The pc committed: the target, or the sum while it fits, or the pc held. -/
def Block.pcCounter (pc : Byte) (pcSet : Bool) (target : Byte) (pcPlusLen : BitVec 9) : Byte :=
  if pcSet then target
  else if pcPlusLen.getLsbD 8 then pc
  else pcPlusLen.extractLsb' 0 8

/-! ## flag_register_3bit (R115) -/

/-- On commit with `fl_we`: `fl <- flags`; there is no other load path. -/
def Block.flagRegister (fl : FlagBits) (flWe : Bool) (flags : FlagBits) : FlagBits := if flWe then flags else fl

/-! ## stack_discipline_fsm (R116) -/

/-- The micro-states, all inside one step. -/
inductive FsmState where
  | idle | pushDec | pushWrite | popRead | popInc
  deriving DecidableEq, Repr

/-- The successor micro-state: `IDLE -> PUSH_DEC -> PUSH_WRITE -> IDLE` for PUSH and CALL,
`IDLE -> POP_READ -> POP_INC -> IDLE` for POP and RET. -/
def Block.fsmNext (c : ControlWord) : FsmState → FsmState
  | .idle => if c.isPush || c.isCall then .pushDec else if c.isPop || c.isRet then .popRead else .idle
  | .pushDec => .pushWrite
  | .pushWrite => .idle
  | .popRead => .popInc
  | .popInc => .idle

/-- The inputs of the block that do not come from the control word. -/
structure FsmIn where
  sp : Byte
  /-- The index port of operand a. -/
  ra : BitVec 3
  /-- `x[a]` at the start of the step. -/
  va : Byte
  pcPlusLen : BitVec 9
  mem : Memory

/-- The outputs as they build up over the micro-states: the value register 7 holds, the pending store, the popped byte
and the two fault requests. An output that the micro-states do not reach stays absent. -/
structure FsmOut where
  sp : Byte
  spWe : Bool := false
  store : Option (Byte × Byte) := none
  popData : Option Byte := none
  stackLow : Bool := false
  stackHigh : Bool := false

/-- `x[a]` read while register 7 holds `sp`: the port reads register 7 anew when it names it (R116, R117). -/
def Block.readWithSp (ra : BitVec 3) (va sp : Byte) : Byte := if Reg.ofPort ra = Reg.sp then sp else va

/-- What one micro-state does. The decrement and the increment have a borrow and a carry bit, the ninth. -/
def Block.fsmAct (c : ControlWord) (i : FsmIn) (o : FsmOut) : FsmState → FsmOut
  | .idle => o
  | .pushDec =>
    let sp1 : BitVec 9 := o.sp.zeroExtend 9 - 1
    { o with sp := sp1.extractLsb' 0 8, spWe := true, stackLow := sp1.getLsbD 8 }
  | .pushWrite =>
    { o with store := some (o.sp, if c.isCall then i.pcPlusLen.extractLsb' 0 8 else Block.readWithSp i.ra i.va o.sp) }
  | .popRead =>
    let v := Memory.read i.mem o.sp.toNat
    { o with popData := some v, sp := if c.isPop && decide (Reg.ofPort i.ra = Reg.sp) then v else o.sp }
  | .popInc =>
    let sp2 : BitVec 9 := o.sp.zeroExtend 9 + 1
    { o with sp := sp2.extractLsb' 0 8, spWe := true, stackHigh := sp2.getLsbD 8 }

/-- The block over one step: from IDLE through at most two micro-states. -/
def Block.stackFsm (c : ControlWord) (i : FsmIn) : FsmOut :=
  let m1 := Block.fsmNext c .idle
  let m2 := Block.fsmNext c m1
  Block.fsmAct c i (Block.fsmAct c i { sp := i.sp } m1) m2

/-! ## branch_resolver (R117) -/

/-- `pc_set`: the explicit signal that the instruction set the pc itself (R107, R117). -/
def Block.pcSet (c : ControlWord) (fl : FlagBits) : Bool :=
  c.isJump || (c.isCond && (decide (fl = 0b001) == c.condSense))

/-! ## fetch_unit (R110) and the composition (R119) -/

/-- An operand latch after the operand fetch: the byte at `pc + k` when the decoder asks for it, `none` when the 9-bit
sum exceeds 255, and the latch's old content when the byte is not asked for (R37, R103). -/
def Block.operandLatch (s : State) (c : ControlWord) (k : BitVec 2) (latch : Byte) : Option Byte :=
  if c.nOperands < k then some latch
  else if (Block.pcPlus s.pc k).getLsbD 8 then none
  else some (s.memRead ((Block.pcPlus s.pc k).extractLsb' 0 8))

/-- The data on the register file's write port: the literal of LDI, the ALU's result, the popped byte; `none` where the
instruction has no explicit write (R119). -/
def Block.writeData (c : ControlWord) (opb : Byte) (aluOut : Option AluOut) (fsm : FsmOut) : Option Byte :=
  if c.bIsImm then some opb
  else if c.isPop then fsm.popData
  else match aluOut with
    | some (.result v) => some v
    | _ => none

/-- The requests of the execute phase in the order of R197: register index, return address, the two stack ends, the
ALU; `NEXT_PC` is not among them, it comes after the commit. -/
def Block.faultRequest (s : State) (c : ControlWord) (opa opb va vb : Byte) (pcPlusLen : BitVec 9)
    (aluOut : Option AluOut) (fsm : FsmOut) : Option FaultRec :=
  match Block.regIndexFault c opa opb with
  | some b => some (addressFault s .regIndex b.toNat)
  | none =>
    if c.isCall && pcPlusLen.getLsbD 8 then some (addressFault s .returnAddr pcPlusLen.toNat)
    else if fsm.stackLow then some (addressFault s .stackLow (-1))
    else if fsm.stackHigh then some (addressFault s .stackHigh 256)
    else if aluOut = some .divideByZero then some (.arithmetic s.pc va vb)
    else none

/-- The rest of a step once the operands are latched: all blocks work on the state at its start, then every write
commits together, or none does when a fault is requested (R100, R119). -/
def Block.execute (s : State) (c : ControlWord) (opa opb : Byte) : State :=
  let ra : BitVec 3 := opa.extractLsb' 0 3
  let rb : BitVec 3 := opb.extractLsb' 0 3
  let va := Block.readPort s.x ra
  let vb := Block.readPort s.x rb
  let pcPlusLen := Block.pcPlus s.pc c.len
  let aluOut := if c.isAlu then c.aluOp.map fun op => alu op va vb else none
  let fsm := Block.stackFsm c { sp := s.sp, ra := ra, va := va, pcPlusLen := pcPlusLen, mem := s.mem }
  let pcSet := Block.pcSet c s.fl
  let target := match fsm.popData with
    | some v => if c.isRet then v else va
    | none => if c.isCall then Block.readWithSp ra va fsm.sp else va
  match Block.faultRequest s c opa opb va vb pcPlusLen aluOut fsm with
  | some r => raise r s
  | none =>
    { x := match Block.writeData c opb aluOut fsm with
        | some wd => Block.registerFile s.x c.regWe ra wd fsm.spWe fsm.sp
        | none => Block.registerFile s.x false ra 0 fsm.spWe fsm.sp
      pc := Block.pcCounter s.pc pcSet target pcPlusLen
      fl := match aluOut with
        | some (.flags f) => Block.flagRegister s.fl c.flWe f
        | _ => s.fl
      run :=
        if c.haltReq then .halted
        else if Block.nextPcFault c pcSet pcPlusLen then .faulted (addressFault s .nextPc pcPlusLen.toNat)
        else s.run
      mem := match fsm.store with
        | some (a, v) => Memory.write s.mem a.toNat v
        | none => s.mem
      out := if c.prn then s.out ++ [va] else s.out }

/-- One step of the eight blocks. `latchA` and `latchB` are whatever the operand latches held before: they have no
value that matters (R37). -/
def Block.step (latchA latchB : Byte) (s : State) : Result :=
  match stopped s with
  | some f => .fault f
  | none =>
    match decodeKind (s.memRead s.pc) with
    | none => .next (raise (.unrecognizedOpcode s.pc (s.memRead s.pc)) s)
    | some k =>
      let c := Block.control k
      match Block.operandLatch s c 1 latchA with
      | none => .next (raise (addressFault s .operandFetch (Block.pcPlus s.pc 1).toNat) s)
      | some opa =>
        match Block.operandLatch s c 2 latchB with
        | none => .next (raise (addressFault s .operandFetch (Block.pcPlus s.pc 2).toNat) s)
        | some opb => .next (Block.execute s c opa opb)

end Sys2Proof.Machine
end

