-- ==== Sys2Proof/Machine/HostInterface.lean ====
section
/-!
DEFINITION. The three external interfaces of the core (R118): program loading (R224), the output sink (R132) and
termination signalling (R193, R226).
-/

namespace Sys2Proof.Machine

/-- The reset input (R220): every state element takes its reset value, whatever it held; the only way out of `Halted`
and `Faulted`. -/
def resetInput (_ : State) : State := State.reset

/-- A launch (R224): reset, then the loader writes the program bytes from address 0 (`LOAD_BASE`, R7). A program of more
than 256 bytes is refused (R60). The core then takes its first step with `pc` = 0. -/
def launch (program : List Byte) : Result :=
  if program.length ≤ Config.MEM_SIZE then
    .next { State.reset with mem := Memory.store State.reset.mem 0 program }
  else .refused (.programTooLong program.length)

/-- The numeric code of a fault record (R193). -/
def FaultRec.code : FaultRec → Nat
  | .unrecognizedOpcode _ _ => 1
  | .arithmetic _ _ _ => 2
  | .address _ _ _ => 3

/-- The number of a sub-cause (R192). -/
def AddrSub.number : AddrSub → Nat
  | .operandFetch => 1
  | .regIndex => 2
  | .stackLow => 3
  | .stackHigh => 4
  | .returnAddr => 5
  | .nextPc => 6

/-- The field `sub` of a fault record: 0 for a code without sub-causes (R34, R193). -/
def FaultRec.sub : FaultRec → Nat
  | .unrecognizedOpcode _ _ => 0
  | .arithmetic _ _ _ => 0
  | .address sub _ _ => sub.number

/-- The field `at_pc` of a fault record (R34). -/
def FaultRec.atPc : FaultRec → Byte
  | .unrecognizedOpcode p _ => p
  | .arithmetic p _ _ => p
  | .address _ p _ => p

/-- The field `info` of a fault record (R193). -/
inductive FaultInfo where
  | opcode (v : Byte)
  | operands (va vb : Byte)
  | addr (a : Int)
  deriving DecidableEq, Repr

/-- What `info` holds for each kind of fault (R190, R191, R192). -/
def FaultRec.info : FaultRec → FaultInfo
  | .unrecognizedOpcode _ v => .opcode v
  | .arithmetic _ va vb => .operands va vb
  | .address _ _ a => .addr a

/-- The status port (R118): running, a normal halt with no special code, or the failure with its record, told apart
from a normal halt (R33, R226). -/
inductive Status where
  | running
  | normalHalt
  | failure (code sub : Nat) (atPc : Byte) (info : FaultInfo)
  deriving DecidableEq, Repr

/-- What the status port shows of a run state. -/
def RunState.status : RunState → Status
  | .running => .running
  | .halted => .normalHalt
  | .faulted r => .failure r.code r.sub r.atPc r.info

/-- The line the sink shows for one emitted value: its decimal numeral, without sign, leading zeros or padding
(R132, D22). -/
def sinkLine (v : Byte) : String := toString v.toNat

/-- What the host can see of the machine (R226): the sink's lines in order and the status port. -/
structure Observation where
  lines : List String
  status : Status
  deriving DecidableEq, Repr

/-- What the host sees of a state. -/
def observe (s : State) : Observation where
  lines := s.out.map sinkLine
  status := s.run.status

end Sys2Proof.Machine
end

