-- ==== Sys2Proof/Safety.lean ====
section
/-!
DEFINITION. What counts as a good state and a safe run, in the terms the statements use: the terminal states (R203), the
machine's invariant (R40), which fault a step reports (R194, R197), and the bytes at the program counter.
-/

namespace Sys2Proof.Machine

/-- A model's "final" predicate: the run has ended well (R203). -/
def State.final (s : State) : Bool := decide (s.run = .halted)

/-- The run has ended with a failure (R203): never final. -/
def State.failed (s : State) : Bool :=
  match s.run with
  | .faulted _ => true
  | _ => false

/-- The records that a run can report (R191, R192): an opcode byte that is none of the thirteen, and an address or index
outside its valid range. The arithmetic fault is not among them: no opcode reaches it. -/
def FaultRec.reportable : FaultRec → Bool
  | .unrecognizedOpcode _ b => (decodeKind b).isNone
  | .arithmetic _ _ _ => false
  | .address .operandFetch _ a => a == 256
  | .address .regIndex _ a => decide (8 ≤ a) && decide (a ≤ 255)
  | .address .stackLow _ a => a == -1
  | .address .stackHigh _ a => a == 256
  | .address .returnAddr _ a => a == 256
  | .address .nextPc _ a => a == 256

/-- The run state agrees with the pc: a reported fault has the pc as its `at_pc` (D11) and is reportable. -/
def State.runOk (s : State) : Bool :=
  match s.run with
  | .faulted r => r.atPc == s.pc && r.reportable
  | _ => true

/-- The machine's invariant (R40): the flag register holds a legal value, memory holds 256 bytes in canonical form, and
a reported fault is one the spec lists for the instruction at the pc. That registers, pc and cells fit eight bits is
their type. -/
abbrev State.Inv (s : State) : Prop := flagLegal s.fl = true ∧ Memory.wf s.mem ∧ s.runOk = true

/-- The bytes of memory from the pc up to address 255, in ascending address order (R54, R75). -/
def State.bytesFromPc (s : State) : List Byte :=
  (List.range (256 - s.pc.toNat)).map fun k => s.memRead (BitVec.ofNat 8 (s.pc.toNat + k))

/-- The operand byte `opa`, at `pc + 1` (R11); meant where that address exists. -/
def State.opa (s : State) : Byte := s.memRead (s.pc + 1)

/-- The operand byte `opb`, at `pc + 2` (R11); meant where that address exists. -/
def State.opb (s : State) : Byte := s.memRead (s.pc + 2)

/-- The kinds whose second operand byte is a register index (R76). -/
def bIsRegister : Kind → Bool
  | .hlt => false
  | .ldi => false
  | .prn => false
  | .mul => true
  | .add => true
  | .cmp => true
  | .push => false
  | .pop => false
  | .call => false
  | .ret => false
  | .jmp => false
  | .jeq => false
  | .jne => false

/-- Whether the instruction ends in the sequential advance in this state, rather than with a pc of its own: the rows of
column `NEXT_PC` of R192 ("HLT never; ... JEQ, JNE when not taken"). -/
def endsInAdvance (k : Kind) (fl : FlagBits) : Bool :=
  match k with
  | .hlt => false
  | .ldi => true
  | .prn => true
  | .mul => true
  | .add => true
  | .cmp => true
  | .push => true
  | .pop => true
  | .call => false
  | .ret => false
  | .jmp => false
  | .jeq => fl != 0b001
  | .jne => fl == 0b001

/-- The fault matrix (R194) for a recognised opcode, in the order of R197: each line is a condition on the state and the
record it reports. -/
def faultMatrix (k : Kind) (s : State) : List (Bool × FaultRec) :=
  let pc := s.pc.toNat
  let n := k.length
  [ (n == 2 && pc == 255, .address .operandFetch s.pc 256),
    (n == 3 && decide (254 ≤ pc), .address .operandFetch s.pc 256),
    (decide (2 ≤ n) && decide (7 < s.opa.toNat), .address .regIndex s.pc s.opa.toNat),
    (bIsRegister k && decide (7 < s.opb.toNat), .address .regIndex s.pc s.opb.toNat),
    (k == .call && pc == 254, .address .returnAddr s.pc 256),
    ((k == .push || k == .call) && s.x.get .r7 == 0, .address .stackLow s.pc (-1)),
    (k == .pop && (if s.opa = 7 then s.memRead (s.x.get .r7) else s.x.get .r7) == 255, .address .stackHigh s.pc 256),
    (k == .ret && s.x.get .r7 == 255, .address .stackHigh s.pc 256),
    (endsInAdvance k s.fl && pc + n == 256, .address .nextPc s.pc 256) ]

/-- The record of the first line whose condition holds (R197: "a step reports at most one fault"). -/
def firstFault : List (Bool × FaultRec) → Option FaultRec
  | [] => none
  | line :: rest => if line.1 then some line.2 else firstFault rest

/-- The fault a running machine's step reports, if any: the first that applies (R197). -/
def stepFault (s : State) : Option FaultRec :=
  match decodeKind (s.memRead s.pc) with
  | none => some (.unrecognizedOpcode s.pc (s.memRead s.pc))
  | some k => firstFault (faultMatrix k s)

/-- The pc after a step that ends without a fault, as an integer: the table of R26, with the instruction rules' reading
of CALL R7, which jumps to the new stack pointer (R163). Nothing here is reduced modulo 256 (R28). -/
def pcTable (k : Kind) (s : State) : Nat :=
  let pc := s.pc.toNat
  let target := ((Reg.ofByte s.opa).map fun a => (s.x.get a).toNat).getD 0
  match k with
  | .hlt => if pc = 255 then 255 else pc + 1
  | .ldi => pc + 3
  | .mul => pc + 3
  | .add => pc + 3
  | .cmp => pc + 3
  | .prn => pc + 2
  | .push => pc + 2
  | .pop => pc + 2
  | .call => if s.opa = 7 then (s.x.get .r7).toNat - 1 else target
  | .ret => (s.memRead (s.x.get .r7)).toNat
  | .jmp => target
  | .jeq => if s.fl = 0b001 then target else pc + 2
  | .jne => if s.fl = 0b001 then pc + 2 else target

/-- The record reports `NEXT_PC`, the one fault taken after the instruction's effect (R106, R197). -/
def FaultRec.isNextPc : FaultRec → Bool
  | .address .nextPc _ _ => true
  | _ => false

end Sys2Proof.Machine
end

