-- ==== Sys2Proof/Certificates/Slice0/Obligations.lean ====
section
/-!
DEFINITION. The statements for the provers. Each docstring names the rules of spec/ it formalises; where a rule itself
rests on one of the spec's own decisions (D<n> of spec/92_eei_decisions.md) or on the model's log, the docstring says so.
Where an opcode byte is needed it is taken from the parameter tuple `Config.OP`, so that no statement but
`SpecWordsDecode` rests on the values of R79.
-/

open Sys2Proof Sys2Proof.Machine

/-! ## Reset, memory and the invariant -/

/-- R24: after reset every register is 0 but register 7, which is 0xF4. -/
def Obligations.RegistersAfterReset : Prop :=
  ∀ r : Reg, State.reset.x.get r = if r = .r7 then 0xF4 else 0x00

/-- R221 (with R27, R32, R33, R35, R59, and R220 for the reset input): what reset leaves beside the registers. The values
of pc, fl and run are the spec's decisions D5, D4 and D23. -/
def Obligations.ResetClearsTheRest : Prop :=
  ∀ s : State,
    (resetInput s).pc = 0x00 ∧ (resetInput s).fl = 0b000 ∧ (resetInput s).run = .running ∧ (resetInput s).out = [] ∧
    (∀ a : Byte, (resetInput s).memRead a = 0x00) ∧ (∀ r : Reg, (resetInput s).x.get r = State.reset.x.get r)

/-- R40 at reset, in the form of the model's invariant: the flag register holds a legal value and memory holds bytes at
addresses below 256. That memory is a list in canonical form is the model's own choice (log 9) and not R40's, and the
clause on a reported fault (R192, D11) says nothing at reset, where run is Running. -/
def Obligations.ResetMeetsInvariant : Prop := State.reset.Inv

/-- R40 at every step, in the form of the model's invariant: from every state that meets it, a step gives a state that
meets it. The invariant says that `fl` is 0b000 or one-hot, that memory is 256 bytes in canonical form (the form is the
model's own choice, log 9), and that a reported fault has the pc as its `at_pc` (D11) and an address or index outside its
valid range (R192), never the arithmetic fault (R191). -/
def Obligations.StepKeepsInvariant : Prop :=
  ∀ s t : State, s.Inv → step s = .next t → t.Inv

/-- The canonical form is canonical (log 9): two memories in it that read alike at the 256 addresses of R50 are equal
data. -/
def Obligations.CanonicalMemoriesAreEqual : Prop :=
  ∀ m n : Memory, Memory.wf m → Memory.wf n →
    (∀ a : Byte, Memory.read m a.toNat = Memory.read n a.toNat) → m = n

/-- R51: a write changes the single cell touched and nothing else of the machine, and a read gives what was last
written. A read answers a byte and no state: it changes nothing. -/
def Obligations.MemoryReadAfterWrite : Prop :=
  ∀ (s : State) (a b v : Byte),
    (s.memWrite a v).memRead b = (if b = a then v else s.memRead b) ∧
    (s.memWrite a v).x = s.x ∧ (s.memWrite a v).pc = s.pc ∧ (s.memWrite a v).fl = s.fl ∧
    (s.memWrite a v).run = s.run ∧ (s.memWrite a v).out = s.out

/-- R59, R60, R224 (D21 for the refusal; log 8): a launch leaves the reset state with the program bytes from address 0
and zero above them; a program of more than 256 bytes is refused. That the loaded memory is in canonical form is the
model's own choice of a representation (log 9). -/
def Obligations.LaunchPlacesTheProgram : Prop :=
  ∀ p : List Byte,
    (p.length ≤ 256 → ∃ t, launch p = .next t ∧ t = { State.reset with mem := t.mem } ∧ Memory.wf t.mem ∧
      ∀ a : Byte, t.memRead a = p.getD a.toNat 0x00) ∧
    (256 < p.length → launch p = .refused (.programTooLong p.length))

/-! ## Encoding -/

/-- R75 to R79: for every admissible opcode tuple, decoding an encoded instruction with any bytes after it gives back the
instruction, with every operand byte, and the bytes after it. -/
def Obligations.DecodeAfterEncode : Prop :=
  ∀ (T : OpTable), T.Admissible → ∀ (i : Instr) (rest : List Byte),
    decodeWith T (encodeWith T i ++ rest) = .ok (i, rest)

/-- R75, R83: whatever decodes is the encoding of the instruction it decodes to, followed by the bytes left over: no byte
of an instruction is dropped and no two byte strings are one instruction. -/
def Obligations.EncodeAfterDecode : Prop :=
  ∀ (T : OpTable) (bytes : List Byte) (i : Instr) (rest : List Byte),
    decodeWith T bytes = .ok (i, rest) → bytes = encodeWith T i ++ rest

/-- R81, with the constraints R79 sets on the tuple: the decode function answers the instruction whose value the byte is,
and `Unrecognized` for every other byte. -/
def Obligations.DecodeMatchesTheWholeByte : Prop :=
  ∀ (T : OpTable), T.Admissible → ∀ b : Byte,
    (∀ k : Kind, decodeKindWith T b = some k ↔ b = T.value k) ∧
    (decodeKindWith T b = none ↔ ∀ k : Kind, b ≠ T.value k)

/-- A few words written out from the spec's encodings (R76, R79). The opcode values are PRESUMED (log 2): they are the
spec's from general knowledge (D6). -/
def Obligations.SpecWordsDecode : Prop :=
  decode [0x82, 0x00, 0x08] = .ok (.ldi 0x00 0x08, []) ∧
  decode [0xA7, 0x03, 0x05, 0x01] = .ok (.cmp 0x03 0x05, [0x01]) ∧
  decode [0x50, 0x01] = .ok (.call 0x01, []) ∧
  decode [0x11, 0xFF] = .ok (.ret, [0xFF]) ∧
  decode [0x56, 0x02, 0x82] = .ok (.jne 0x02, [0x82]) ∧
  decode [0x00, 0x00] = .error (.unrecognizedOpcode 0x00) ∧
  decode [0xA2, 0x01] = .error (.missingByte 2)

/-! ## The step -/

/-- R100 to R105: when the bytes of memory from the pc decode to an instruction, a step of a running machine is that
instruction's execution, in the same state. -/
def Obligations.StepRunsTheDecodedInstruction : Prop :=
  ∀ (s : State) (i : Instr) (rest : List Byte),
    s.run = .running → decode s.bytesFromPc = .ok (i, rest) → step s = exec i s

/-- The host's question (log 8): with room for three bytes at the pc, the step after `withFetchWord` executes the
instruction that the word decodes to. -/
def Obligations.FetchWordIsRun : Prop :=
  ∀ (s : State) (nbits w : Nat) (i : Instr),
    s.run = .running → s.pc.toNat ≤ 253 → decodeTableWord nbits w = some i →
    step (s.withFetchWord nbits w) = exec i (s.withFetchWord nbits w)

/-- R190: a byte at the pc that is none of the thirteen opcode values is reported with code 1, no sub-cause, its address
and its value, no state other than run changes, and no further instruction executes; and a step reports code 1 only for
such a byte. -/
def Obligations.UnrecognizedOpcodeIsReported : Prop :=
  ∀ s : State, s.run = .running →
    ((∀ k : Kind, s.memRead s.pc ≠ Config.OP.value k) →
      step s = .next { s with run := .faulted (.unrecognizedOpcode s.pc (s.memRead s.pc)) } ∧
      RunState.status (.faulted (.unrecognizedOpcode s.pc (s.memRead s.pc))) =
        .failure 1 0 s.pc (.opcode (s.memRead s.pc)) ∧
      ∀ u : State, step { s with run := .faulted (.unrecognizedOpcode s.pc (s.memRead s.pc)) } ≠ .next u) ∧
    (∀ (t : State) (r : FaultRec), step s = .next t → t.run = .faulted r → r.code = 1 →
      ∀ k : Kind, s.memRead s.pc ≠ Config.OP.value k)

/-- R103 (D8, D10): an instruction whose last operand byte would lie above address 255 reports `OPERAND_FETCH` with
address 256 and changes nothing else; HLT and RET fetch no operand and never do. -/
def Obligations.MissingOperandIsReported : Prop :=
  ∀ (s : State) (k : Kind), s.run = .running → s.memRead s.pc = Config.OP.value k →
    (255 < s.pc.toNat + (k.length - 1) →
      step s = .next { s with run := .faulted (.address .operandFetch s.pc 256) }) ∧
    (k = .hlt → step s = exec .hlt s) ∧ (k = .ret → step s = exec .ret s)

/-- R104 (D9): the first byte above 7 in a register-index position, `opa` before `opb`, is reported with `REG_INDEX` and
nothing else changes, for every instruction with a register operand, JEQ and JNE not taken among them. -/
def Obligations.BadRegisterIndexIsReported : Prop :=
  ∀ (i : Instr) (s : State) (b : Byte),
    (i.registerOperands.find? fun c => decide (7 < c.toNat)) = some b →
    exec i s = .next { s with run := .faulted (.address .regIndex s.pc b.toNat) }

/-- R100, R203 and R208 (D23): a machine takes a step exactly when it runs. Every running state has a next state,
whatever its memory and registers hold; a terminal state has none. That the model stops there with a fault of the step,
and does not repeat the state, is the model's choice (log 1). -/
def Obligations.OnlyARunningMachineSteps : Prop :=
  (∀ s : State, s.run = .running → ∃ t, step s = .next t) ∧
  (∀ s : State, s.run = .halted → step s = .fault .halted) ∧
  (∀ (s : State) (r : FaultRec), s.run = .faulted r → step s = .fault (.faulted r))

/-- R194, R197 (D14; R194 is the spec's inference): a step ends in the first fault of the priority order that applies in
the state it starts from, in Halted if it executes HLT, and in Running otherwise. -/
def Obligations.StepReportsTheFirstFault : Prop :=
  ∀ s t : State, step s = .next t →
    t.run = match stepFault s with
      | some r => .faulted r
      | none => if s.memRead s.pc = Config.OP.hlt then .halted else .running

/-- R198 (D11): faults are precise. The record's `at_pc` is the pc of the faulting step and the pc stays there; unless the
fault is `NEXT_PC`, the whole state but run is what it was. -/
def Obligations.FaultsArePrecise : Prop :=
  ∀ (s t : State) (r : FaultRec), step s = .next t → t.run = .faulted r →
    r.atPc = s.pc ∧ t.pc = s.pc ∧ (r.isNextPc = false → t = { s with run := .faulted r })

/-- R147, R191 (D15): the arithmetic fault cannot occur in any run. -/
def Obligations.ArithmeticFaultNeverOccurs : Prop :=
  ∀ (s t : State) (p va vb : Byte), step s = .next t → t.run ≠ .faulted (.arithmetic p va vb)

/-- R26, R28 and R107: after a step that ends without a fault the pc is the one value the table gives, and no sequential
update has wrapped (D8, D12). -/
def Obligations.PcAfterEveryStep : Prop :=
  ∀ (s t : State) (k : Kind), s.memRead s.pc = Config.OP.value k → step s = .next t → t.failed = false →
    t.pc.toNat = pcTable k s

/-- R110 to R119: the composition of the eight blocks, whatever the operand latches held before (R37), gives in every
state what the architectural step gives. The decomposition and the ports are the spec's own (D24); the wiring between the
blocks is the model's deduction from the port lists and R119 (log 13, DEDUCED). -/
def Obligations.BlocksComputeTheStep : Prop :=
  ∀ (latchA latchB : Byte) (s : State), Block.step latchA latchB s = step s

/-! ## The instructions -/

/-- R130 (D12): HLT executes at every address, 255 included, halts, moves the pc on unless it is 255, and changes nothing
else. -/
def Obligations.HltHalts : Prop :=
  ∀ s : State,
    exec .hlt s = .next { s with run := .halted, pc := if s.pc = 0xFF then 0xFF else s.pc + 1 } ∧
    (s.run = .running → s.memRead s.pc = Config.OP.hlt → step s = exec .hlt s)

/-- R131: LDI writes the literal to `x[a]` and advances by 3; it faults when an operand byte is missing (pc at 254 or
above), when `opa` exceeds 7, and, after the register write, when pc is 253. -/
def Obligations.LdiLoadsTheLiteral : Prop :=
  ∀ (s : State) (opa imm : Byte),
    (∀ a, Reg.ofByte opa = some a → s.pc.toNat + 3 ≤ 255 →
      exec (.ldi opa imm) s = .next { s with x := s.x.set a imm, pc := s.pc + 3 }) ∧
    (∀ a, Reg.ofByte opa = some a → 255 < s.pc.toNat + 3 →
      exec (.ldi opa imm) s =
        .next { s with x := s.x.set a imm, run := .faulted (.address .nextPc s.pc (s.pc.toNat + 3)) }) ∧
    (7 < opa.toNat → exec (.ldi opa imm) s = .next { s with run := .faulted (.address .regIndex s.pc opa.toNat) }) ∧
    (s.run = .running → s.memRead s.pc = Config.OP.ldi →
      step s = if 254 ≤ s.pc.toNat then .next { s with run := .faulted (.address .operandFetch s.pc 256) }
        else exec (.ldi s.opa s.opb) s)

/-- R132: PRN appends the register's value to the output and advances by 2; at pc 254 the value has been emitted before
the fault. The sink's text form (D22) is not stated here. -/
def Obligations.PrnEmitsTheRegister : Prop :=
  ∀ (s : State) (opa : Byte),
    (∀ a, Reg.ofByte opa = some a → s.pc.toNat + 2 ≤ 255 →
      exec (.prn opa) s = .next { s with out := s.out ++ [s.x.get a], pc := s.pc + 2 }) ∧
    (∀ a, Reg.ofByte opa = some a → 255 < s.pc.toNat + 2 →
      exec (.prn opa) s =
        .next { s with out := s.out ++ [s.x.get a], run := .faulted (.address .nextPc s.pc (s.pc.toNat + 2)) }) ∧
    (7 < opa.toNat → exec (.prn opa) s = .next { s with run := .faulted (.address .regIndex s.pc opa.toNat) }) ∧
    (s.run = .running → s.memRead s.pc = Config.OP.prn →
      step s = if s.pc.toNat = 255 then .next { s with run := .faulted (.address .operandFetch s.pc 256) }
        else exec (.prn s.opa) s)

/-- R144: MUL writes the product modulo 256 of the two registers to `x[a]`, with no arithmetic fault and no flag. -/
def Obligations.MulMultipliesModulo256 : Prop :=
  ∀ (s : State) (opa opb : Byte),
    (∀ a b, Reg.ofByte opa = some a → Reg.ofByte opb = some b → s.pc.toNat + 3 ≤ 255 →
      exec (.mul opa opb) s =
        .next { s with
          x := s.x.set a (BitVec.ofNat 8 ((s.x.get a).toNat * (s.x.get b).toNat % 256)), pc := s.pc + 3 }) ∧
    (∀ a b, Reg.ofByte opa = some a → Reg.ofByte opb = some b → 255 < s.pc.toNat + 3 →
      exec (.mul opa opb) s =
        .next { s with
          x := s.x.set a (BitVec.ofNat 8 ((s.x.get a).toNat * (s.x.get b).toNat % 256)),
          run := .faulted (.address .nextPc s.pc (s.pc.toNat + 3)) }) ∧
    (7 < opa.toNat → exec (.mul opa opb) s = .next { s with run := .faulted (.address .regIndex s.pc opa.toNat) }) ∧
    (opa.toNat ≤ 7 → 7 < opb.toNat →
      exec (.mul opa opb) s = .next { s with run := .faulted (.address .regIndex s.pc opb.toNat) }) ∧
    (s.run = .running → s.memRead s.pc = Config.OP.mul →
      step s = if 254 ≤ s.pc.toNat then .next { s with run := .faulted (.address .operandFetch s.pc 256) }
        else exec (.mul s.opa s.opb) s)

/-- R145: ADD writes the sum modulo 256 of the two registers to `x[a]`, with no flag. -/
def Obligations.AddAddsModulo256 : Prop :=
  ∀ (s : State) (opa opb : Byte),
    (∀ a b, Reg.ofByte opa = some a → Reg.ofByte opb = some b → s.pc.toNat + 3 ≤ 255 →
      exec (.add opa opb) s =
        .next { s with
          x := s.x.set a (BitVec.ofNat 8 (((s.x.get a).toNat + (s.x.get b).toNat) % 256)), pc := s.pc + 3 }) ∧
    (∀ a b, Reg.ofByte opa = some a → Reg.ofByte opb = some b → 255 < s.pc.toNat + 3 →
      exec (.add opa opb) s =
        .next { s with
          x := s.x.set a (BitVec.ofNat 8 (((s.x.get a).toNat + (s.x.get b).toNat) % 256)),
          run := .faulted (.address .nextPc s.pc (s.pc.toNat + 3)) }) ∧
    (7 < opa.toNat → exec (.add opa opb) s = .next { s with run := .faulted (.address .regIndex s.pc opa.toNat) }) ∧
    (opa.toNat ≤ 7 → 7 < opb.toNat →
      exec (.add opa opb) s = .next { s with run := .faulted (.address .regIndex s.pc opb.toNat) }) ∧
    (s.run = .running → s.memRead s.pc = Config.OP.add →
      step s = if 254 ≤ s.pc.toNat then .next { s with run := .faulted (.address .operandFetch s.pc 256) }
        else exec (.add s.opa s.opb) s)

/-- R146 (D2 for the sense, D3 and log 4 for the bit places): CMP sets E, G or L by the unsigned comparison of `x[a]`
with `x[b]`, overwriting the whole flag register, also when it then ends in `NEXT_PC`. -/
def Obligations.CmpSetsTheFlags : Prop :=
  ∀ (s : State) (opa opb : Byte) (f : FlagBits),
    (∀ a b, Reg.ofByte opa = some a → Reg.ofByte opb = some b →
      f = (if (s.x.get a).toNat = (s.x.get b).toNat then 0b001
        else if (s.x.get a).toNat > (s.x.get b).toNat then 0b010 else 0b100) →
      (s.pc.toNat + 3 ≤ 255 → exec (.cmp opa opb) s = .next { s with fl := f, pc := s.pc + 3 }) ∧
      (255 < s.pc.toNat + 3 → exec (.cmp opa opb) s =
        .next { s with fl := f, run := .faulted (.address .nextPc s.pc (s.pc.toNat + 3)) })) ∧
    (7 < opa.toNat → exec (.cmp opa opb) s = .next { s with run := .faulted (.address .regIndex s.pc opa.toNat) }) ∧
    (opa.toNat ≤ 7 → 7 < opb.toNat →
      exec (.cmp opa opb) s = .next { s with run := .faulted (.address .regIndex s.pc opb.toNat) }) ∧
    (s.run = .running → s.memRead s.pc = Config.OP.cmp →
      step s = if 254 ≤ s.pc.toNat then .next { s with run := .faulted (.address .operandFetch s.pc 256) }
        else exec (.cmp s.opa s.opb) s)

/-- R160, R161 (D8; D16 for PUSH R7): PUSH decrements register 7 and stores `x[a]`, read after the decrement, at the new
stack pointer; with register 7 at 0 it reports `STACK_LOW` and changes nothing else; at pc 254 the push is committed. -/
def Obligations.PushStoresBelowTheStack : Prop :=
  ∀ (s : State) (opa : Byte) (a : Reg), Reg.ofByte opa = some a →
    (∀ x m, s.x.get .r7 ≠ 0x00 → x = s.x.set .r7 (s.x.get .r7 - 1) →
      m = Memory.write s.mem (s.x.get .r7 - 1).toNat (x.get a) →
      (s.pc.toNat + 2 ≤ 255 → exec (.push opa) s = .next { s with x := x, mem := m, pc := s.pc + 2 }) ∧
      (255 < s.pc.toNat + 2 → exec (.push opa) s =
        .next { s with x := x, mem := m, run := .faulted (.address .nextPc s.pc (s.pc.toNat + 2)) })) ∧
    (s.x.get .r7 = 0x00 → exec (.push opa) s = .next { s with run := .faulted (.address .stackLow s.pc (-1)) })

/-- R160, R162 (D8; D16 for POP R7): POP loads the byte at the stack pointer into `x[a]` and increments register 7; for
`a` = 7 register 7 ends as the popped byte plus 1; when the incremented value would be 256 it reports `STACK_HIGH` and
changes nothing else. -/
def Obligations.PopLoadsFromTheStack : Prop :=
  ∀ (s : State) (opa : Byte) (a : Reg) (v base : Byte), Reg.ofByte opa = some a → v = s.memRead (s.x.get .r7) →
    base = (if a = .r7 then v else s.x.get .r7) →
    (base ≠ 0xFF → s.pc.toNat + 2 ≤ 255 →
      exec (.pop opa) s = .next { s with x := (s.x.set a v).set .r7 (base + 1), pc := s.pc + 2 }) ∧
    (base ≠ 0xFF → 255 < s.pc.toNat + 2 →
      exec (.pop opa) s =
        .next { s with x := (s.x.set a v).set .r7 (base + 1),
                       run := .faulted (.address .nextPc s.pc (s.pc.toNat + 2)) }) ∧
    (base = 0xFF → exec (.pop opa) s = .next { s with run := .faulted (.address .stackHigh s.pc 256) })

/-- R163 (D8; D16 for CALL R7): CALL pushes `pc + 2` and jumps to `x[a]`, read after the decrement; at pc 254 it reports
`RETURN_ADDR`, before `STACK_LOW`, and in both cases changes nothing else. -/
def Obligations.CallPushesTheReturnAddress : Prop :=
  ∀ (s : State) (opa : Byte) (a : Reg), Reg.ofByte opa = some a →
    (∀ x, s.pc.toNat + 2 ≤ 255 → s.x.get .r7 ≠ 0x00 → x = s.x.set .r7 (s.x.get .r7 - 1) →
      exec (.call opa) s =
        .next { s with x := x, mem := Memory.write s.mem (s.x.get .r7 - 1).toNat (s.pc + 2), pc := x.get a }) ∧
    (255 < s.pc.toNat + 2 →
      exec (.call opa) s = .next { s with run := .faulted (.address .returnAddr s.pc (s.pc.toNat + 2)) }) ∧
    (s.pc.toNat + 2 ≤ 255 → s.x.get .r7 = 0x00 →
      exec (.call opa) s = .next { s with run := .faulted (.address .stackLow s.pc (-1)) })

/-- R164: RET pops the byte at the stack pointer into the pc and increments register 7; with register 7 at 255 it reports
`STACK_HIGH` and changes nothing else. It fetches no operand and executes at every address. -/
def Obligations.RetPopsThePc : Prop :=
  ∀ s : State,
    (s.x.get .r7 ≠ 0xFF →
      exec .ret s = .next { s with x := s.x.set .r7 (s.x.get .r7 + 1), pc := s.memRead (s.x.get .r7) }) ∧
    (s.x.get .r7 = 0xFF → exec .ret s = .next { s with run := .faulted (.address .stackHigh s.pc 256) }) ∧
    (s.run = .running → s.memRead s.pc = Config.OP.ret → step s = exec .ret s)

/-- R180: JMP makes the full register value the pc, also its own address, with no other effect. -/
def Obligations.JmpJumps : Prop :=
  ∀ (s : State) (opa : Byte),
    (∀ a, Reg.ofByte opa = some a → exec (.jmp opa) s = .next { s with pc := s.x.get a }) ∧
    (7 < opa.toNat → exec (.jmp opa) s = .next { s with run := .faulted (.address .regIndex s.pc opa.toNat) }) ∧
    (s.run = .running → s.memRead s.pc = Config.OP.jmp →
      step s = if s.pc.toNat = 255 then .next { s with run := .faulted (.address .operandFetch s.pc 256) }
        else exec (.jmp s.opa) s)

/-- R181: JEQ jumps when `fl` = 0b001 and else advances by 2; the index is checked also when it is not taken, and
`NEXT_PC` is reported only when it is not taken. -/
def Obligations.JeqJumpsIfEqual : Prop :=
  ∀ (s : State) (opa : Byte),
    (∀ a, Reg.ofByte opa = some a →
      (s.fl = 0b001 → exec (.jeq opa) s = .next { s with pc := s.x.get a }) ∧
      (s.fl ≠ 0b001 → s.pc.toNat + 2 ≤ 255 → exec (.jeq opa) s = .next { s with pc := s.pc + 2 }) ∧
      (s.fl ≠ 0b001 → 255 < s.pc.toNat + 2 → exec (.jeq opa) s =
        .next { s with run := .faulted (.address .nextPc s.pc (s.pc.toNat + 2)) })) ∧
    (7 < opa.toNat → exec (.jeq opa) s = .next { s with run := .faulted (.address .regIndex s.pc opa.toNat) }) ∧
    (s.run = .running → s.memRead s.pc = Config.OP.jeq →
      step s = if s.pc.toNat = 255 then .next { s with run := .faulted (.address .operandFetch s.pc 256) }
        else exec (.jeq s.opa) s)

/-- R182: JNE jumps when `fl` /= 0b001, before the first CMP too, and else advances by 2. -/
def Obligations.JneJumpsIfNotEqual : Prop :=
  ∀ (s : State) (opa : Byte),
    (∀ a, Reg.ofByte opa = some a →
      (s.fl ≠ 0b001 → exec (.jne opa) s = .next { s with pc := s.x.get a }) ∧
      (s.fl = 0b001 → s.pc.toNat + 2 ≤ 255 → exec (.jne opa) s = .next { s with pc := s.pc + 2 }) ∧
      (s.fl = 0b001 → 255 < s.pc.toNat + 2 → exec (.jne opa) s =
        .next { s with run := .faulted (.address .nextPc s.pc (s.pc.toNat + 2)) })) ∧
    (7 < opa.toNat → exec (.jne opa) s = .next { s with run := .faulted (.address .regIndex s.pc opa.toNat) }) ∧
    (s.run = .running → s.memRead s.pc = Config.OP.jne →
      step s = if s.pc.toNat = 255 then .next { s with run := .faulted (.address .operandFetch s.pc 256) }
        else exec (.jne s.opa) s)

/-- R140 to R142, R146 and R148 (D1, D2, D15): what the ALU answers for each of its tags, in integers. That E, G and L are
the bits 0, 1 and 2 of the flags is R29 (D3; log 4, PRESUMED), and that the ALU answers one of a result, flags and the
zero-divisor fault, with no value for the outputs an operation does not have, is the model's choice (log 12). -/
def Obligations.AluComputesModulo256 : Prop :=
  ∀ va vb : Byte,
    (∃ v : Byte, alu .mul va vb = .result v ∧ v.toNat = va.toNat * vb.toNat % 256) ∧
    (∃ v : Byte, alu .add va vb = .result v ∧ v.toNat = (va.toNat + vb.toNat) % 256) ∧
    (∃ v : Byte, alu .sub va vb = .result v ∧ (v.toNat : Int) = ((va.toNat : Int) - vb.toNat) % 256) ∧
    (vb.toNat ≠ 0 → ∃ v : Byte, alu .div va vb = .result v ∧
      v.toNat * vb.toNat ≤ va.toNat ∧ va.toNat < (v.toNat + 1) * vb.toNat) ∧
    (vb.toNat = 0 → alu .div va vb = .divideByZero) ∧
    (∃ f : FlagBits, alu .cmp va vb = .flags f ∧
      (f.getLsbD 0 = decide (va.toNat = vb.toNat)) ∧ (f.getLsbD 1 = decide (va.toNat > vb.toNat)) ∧
      (f.getLsbD 2 = decide (va.toNat < vb.toNat)))

/-! ## Frames -/

/-- Frame of LDI, MUL and ADD (R131, R143 to R145): every register but the destination, the flags, the output and every
byte of memory are unchanged, and run changes only by a fault. -/
def Obligations.FrameOfRegisterResults : Prop :=
  ∀ (i : Instr) (s t : State) (opa opb : Byte),
    (i = .ldi opa opb ∨ i = .mul opa opb ∨ i = .add opa opb) → exec i s = .next t →
    (∀ r, Reg.ofByte opa ≠ some r → t.x.get r = s.x.get r) ∧ t.fl = s.fl ∧ t.out = s.out ∧
    (∀ a : Byte, t.memRead a = s.memRead a) ∧ (t.run = s.run ∨ ∃ c, t.run = .faulted c)

/-- Frame of HLT, PRN, CMP, JMP, JEQ and JNE (R130, R132, R143, R146, R180 to R182): no register and no byte of memory
changes; the flags change only by CMP, the output only by PRN, and run only by HLT or a fault. -/
def Obligations.FrameOfRegisterReaders : Prop :=
  ∀ (i : Instr) (s t : State),
    (i.kind = .hlt ∨ i.kind = .prn ∨ i.kind = .cmp ∨ i.kind = .jmp ∨ i.kind = .jeq ∨ i.kind = .jne) →
    exec i s = .next t →
    (∀ r, t.x.get r = s.x.get r) ∧ (∀ a : Byte, t.memRead a = s.memRead a) ∧
    (i.kind ≠ .cmp → t.fl = s.fl) ∧ (i.kind ≠ .prn → t.out = s.out) ∧
    (t.run = s.run ∨ (i.kind = .hlt ∧ t.run = .halted) ∨ ∃ c, t.run = .faulted c)

/-- Frame of POP and RET (R160, R162, R164): every register but register 7 and POP's destination, the flags, the output
and every byte of memory, the popped one too, are unchanged, and run changes only by a fault. -/
def Obligations.FrameOfPops : Prop :=
  ∀ (i : Instr) (s t : State) (opa : Byte), (i = .pop opa ∨ i = .ret) → exec i s = .next t →
    (∀ r, r ≠ .r7 → (i = .pop opa → Reg.ofByte opa ≠ some r) → t.x.get r = s.x.get r) ∧
    t.fl = s.fl ∧ t.out = s.out ∧ (∀ a : Byte, t.memRead a = s.memRead a) ∧
    (t.run = s.run ∨ ∃ c, t.run = .faulted c)

/-- Frame of PUSH and CALL (R52, R160, R161, R163): every register but register 7, the flags and the output are
unchanged; every byte of memory is unchanged but the one at the stack pointer that `stackDecrement` computes, and all of
them are where it, the register index or CALL's return address is faulted; run changes only by a fault. -/
def Obligations.FrameOfPushes : Prop :=
  ∀ (i : Instr) (s t : State) (opa : Byte), (i = .push opa ∨ i = .call opa) → exec i s = .next t →
    (∀ r, r ≠ .r7 → t.x.get r = s.x.get r) ∧ t.fl = s.fl ∧ t.out = s.out ∧
    (∀ s1, stackDecrement s = .ok s1 → ∀ a : Byte, a ≠ s1.sp → t.memRead a = s.memRead a) ∧
    (((∃ c, stackDecrement s = .error c) ∨ 7 < opa.toNat ∨ (i = .call opa ∧ 255 < s.pc.toNat + 2)) →
      ∀ a : Byte, t.memRead a = s.memRead a) ∧
    (t.run = s.run ∨ ∃ c, t.run = .faulted c)

/-! ## Whole-machine rules -/

/-- R31: the flag register is written by CMP only and read by JEQ and JNE only: no other instruction's effect on the rest
of the state depends on it, so none copies it to a register or to memory, and none loads it. -/
def Obligations.FlagsWrittenByCmpReadByBranches : Prop :=
  (∀ (i : Instr) (s t : State), exec i s = .next t → i.kind ≠ .cmp → t.fl = s.fl) ∧
  (∀ (i : Instr) (s t : State) (f : FlagBits), i.kind ≠ .jeq → i.kind ≠ .jne → exec i s = .next t →
    ∃ g, exec i { s with fl := f } = .next { t with fl := g })

/-- R30 (D4; marked by the spec as its inference): CMP leaves a one-hot value, and from then on every step keeps `fl`
one-hot. -/
def Obligations.FlagsOneHotFromTheFirstCmp : Prop :=
  (∀ (s t : State) (opa opb : Byte), opa.toNat ≤ 7 → opb.toNat ≤ 7 → exec (.cmp opa opb) s = .next t →
    flagOneHot t.fl = true) ∧
  (∀ s t : State, flagOneHot s.fl = true → step s = .next t → flagOneHot t.fl = true)

/-- R35: the output is empty at reset; a step appends to it the value that a PRN emits and nothing else, no other
instruction writes it, and the core never reads it: with any other list of earlier outputs the step is the same. -/
def Obligations.OutputWrittenByPrnOnly : Prop :=
  State.reset.out = [] ∧
  (∀ (s : State) (opa : Byte) (a : Reg), Reg.ofByte opa = some a →
    ∃ t, exec (.prn opa) s = .next t ∧ t.out = s.out ++ [s.x.get a]) ∧
  (∀ s t : State, step s = .next t → ∃ w : List Byte,
    t.out = s.out ++ w ∧ (w = [] ∨ s.memRead s.pc = Config.OP.prn ∧ w.length = 1) ∧
    ∀ o : List Byte, step { s with out := o } = .next { t with out := o ++ w })

/-- R52, R53, R160 and conflict C6: a byte of memory changes in a step only if the instruction at the pc is PUSH or CALL,
and then only the byte just below the stack pointer, which is not at 0. -/
def Obligations.MemoryWrittenByPushAndCallOnly : Prop :=
  ∀ (s t : State) (a : Byte), step s = .next t → t.memRead a ≠ s.memRead a →
    (s.memRead s.pc = Config.OP.push ∨ s.memRead s.pc = Config.OP.call) ∧
    a.toNat + 1 = (s.x.get .r7).toNat ∧ t.x.get .r7 = a

/-- R62, R64 (D26; D16 for PUSH R7): the byte `v` that PUSH or CALL has stored at `sp`, `x[a]` read after the decrement
or the return address, is what every later fetch at that address reads, in every state `u` whose cell still holds it. As
an opcode byte it is reported if it is none of the thirteen; otherwise the instruction of its kind is decoded and
executed, or its missing operand reported (R103). In whatever instruction is decoded from bytes that include the cell, the
byte in that place, opcode or operand, is `v`, and that instruction is what the step executes. -/
def Obligations.StoredByteIsFetched : Prop :=
  ∀ (s t u : State) (opa : Byte) (a : Reg) (sp v : Byte),
    Reg.ofByte opa = some a → s.x.get .r7 ≠ 0x00 → sp = s.x.get .r7 - 1 →
    ((exec (.push opa) s = .next t ∧ v = (s.x.set .r7 sp).get a) ∨
      (exec (.call opa) s = .next t ∧ s.pc.toNat + 2 ≤ 255 ∧ v = s.pc + 2)) →
    u.memRead sp = t.memRead sp →
    u.memRead sp = v ∧
    (u.run = .running → u.pc = sp → (∀ k : Kind, v ≠ Config.OP.value k) →
      step u = .next { u with run := .faulted (.unrecognizedOpcode sp v) }) ∧
    (∀ k : Kind, u.run = .running → u.pc = sp → v = Config.OP.value k → 256 < sp.toNat + k.length →
      step u = .next { u with run := .faulted (.address .operandFetch sp 256) }) ∧
    (∀ k : Kind, u.run = .running → u.pc = sp → v = Config.OP.value k → sp.toNat + k.length ≤ 256 →
      ∃ i rest, decode u.bytesFromPc = .ok (i, rest) ∧ i.kind = k ∧ step u = exec i u) ∧
    (∀ (i : Instr) (rest : List Byte) (n : Nat), u.run = .running → decode u.bytesFromPc = .ok (i, rest) →
      n < i.kind.length → u.pc.toNat + n = sp.toNat → (encode i)[n]? = some v ∧ step u = exec i u)

/-! ## Instructions together: the properties the source asks for -/

/-- The property quoted in R162 (the spec's inference from R161, R162; C10): PUSH then POP of the same register, register 7
included, restores every register and the stack pointer. -/
def Obligations.PushThenPopRestores : Prop :=
  ∀ (s : State) (opa : Byte), opa.toNat ≤ 7 → s.x.get .r7 ≠ 0x00 → s.pc.toNat + 4 ≤ 255 →
    ∃ s1 s2, exec (.push opa) s = .next s1 ∧ exec (.pop opa) s1 = .next s2 ∧
      s2 = { s with pc := s.pc + 4, mem := s1.mem }

/-- The property quoted in R165 (the spec's inference from R163, R164): after CALL, in every later state in which the
stack pointer is back and the return address is still in its cell, RET resumes at the instruction after the CALL and
gives back the stack pointer the CALL started with. -/
def Obligations.CallThenRetResumes : Prop :=
  ∀ (s : State) (opa : Byte), opa.toNat ≤ 7 → s.x.get .r7 ≠ 0x00 → s.pc.toNat + 2 ≤ 255 →
    ∃ s1, exec (.call opa) s = .next s1 ∧
      ∀ u : State, u.x.get .r7 = s1.x.get .r7 → u.memRead (u.x.get .r7) = s1.memRead (s1.x.get .r7) →
        exec .ret u = .next { u with x := u.x.set .r7 (s.x.get .r7), pc := s.pc + 2 }

/-- The property quoted in R181 (the spec's inference from R146, R181) and in R182: after CMP a, b, JEQ is taken exactly
when the two registers are equal, and JNE is its complement. -/
def Obligations.CompareThenBranch : Prop :=
  ∀ (s : State) (opa opb opc : Byte) (a b c : Reg), Reg.ofByte opa = some a → Reg.ofByte opb = some b →
    Reg.ofByte opc = some c → s.pc.toNat + 5 ≤ 255 →
    ∃ s1, exec (.cmp opa opb) s = .next s1 ∧ s1.x = s.x ∧
      (s.x.get a = s.x.get b →
        exec (.jeq opc) s1 = .next { s1 with pc := s.x.get c } ∧
        exec (.jne opc) s1 = .next { s1 with pc := s.pc + 5 }) ∧
      (s.x.get a ≠ s.x.get b →
        exec (.jeq opc) s1 = .next { s1 with pc := s.pc + 5 } ∧
        exec (.jne opc) s1 = .next { s1 with pc := s.x.get c })

/-- The property quoted in R132: LDI of a value to a register, register 7 included, followed by PRN of that register emits
exactly the loaded value. -/
def Obligations.LoadThenPrintEmitsTheValue : Prop :=
  ∀ (s : State) (opa imm : Byte), opa.toNat ≤ 7 → s.pc.toNat + 5 ≤ 255 →
    ∃ s1 s2, exec (.ldi opa imm) s = .next s1 ∧ exec (.prn opa) s1 = .next s2 ∧ s2.out = s.out ++ [imm] ∧
      s2.pc.toNat = s.pc.toNat + 5 ∧ s2.run = s.run
end

