-- ==== Sys2Proof/Laws/State.lean ====
section
/-!
SUPPORT. One lemma for each field under each update of State, so that no later proof unfolds a record update, and the
laws of the register file.
-/

namespace Sys2Proof.Machine

variable (s : State) (r : Reg) (v a : Byte) (f : FlagBits) (c : FaultRec)

@[simp] theorem setReg_x : (s.setReg r v).x = s.x.set r v := rfl
@[simp] theorem setReg_pc : (s.setReg r v).pc = s.pc := rfl
@[simp] theorem setReg_fl : (s.setReg r v).fl = s.fl := rfl
@[simp] theorem setReg_run : (s.setReg r v).run = s.run := rfl
@[simp] theorem setReg_mem : (s.setReg r v).mem = s.mem := rfl
@[simp] theorem setReg_out : (s.setReg r v).out = s.out := rfl

@[simp] theorem setPc_x : (s.setPc v).x = s.x := rfl
@[simp] theorem setPc_pc : (s.setPc v).pc = v := rfl
@[simp] theorem setPc_fl : (s.setPc v).fl = s.fl := rfl
@[simp] theorem setPc_run : (s.setPc v).run = s.run := rfl
@[simp] theorem setPc_mem : (s.setPc v).mem = s.mem := rfl
@[simp] theorem setPc_out : (s.setPc v).out = s.out := rfl

@[simp] theorem setFl_x : (s.setFl f).x = s.x := rfl
@[simp] theorem setFl_pc : (s.setFl f).pc = s.pc := rfl
@[simp] theorem setFl_fl : (s.setFl f).fl = f := rfl
@[simp] theorem setFl_run : (s.setFl f).run = s.run := rfl
@[simp] theorem setFl_mem : (s.setFl f).mem = s.mem := rfl
@[simp] theorem setFl_out : (s.setFl f).out = s.out := rfl

@[simp] theorem halt_x : s.halt.x = s.x := rfl
@[simp] theorem halt_pc : s.halt.pc = s.pc := rfl
@[simp] theorem halt_fl : s.halt.fl = s.fl := rfl
@[simp] theorem halt_run : s.halt.run = .halted := rfl
@[simp] theorem halt_mem : s.halt.mem = s.mem := rfl
@[simp] theorem halt_out : s.halt.out = s.out := rfl

@[simp] theorem emit_x : (s.emit v).x = s.x := rfl
@[simp] theorem emit_pc : (s.emit v).pc = s.pc := rfl
@[simp] theorem emit_fl : (s.emit v).fl = s.fl := rfl
@[simp] theorem emit_run : (s.emit v).run = s.run := rfl
@[simp] theorem emit_mem : (s.emit v).mem = s.mem := rfl
@[simp] theorem emit_out : (s.emit v).out = s.out ++ [v] := rfl

@[simp] theorem memWrite_x : (s.memWrite a v).x = s.x := rfl
@[simp] theorem memWrite_pc : (s.memWrite a v).pc = s.pc := rfl
@[simp] theorem memWrite_fl : (s.memWrite a v).fl = s.fl := rfl
@[simp] theorem memWrite_run : (s.memWrite a v).run = s.run := rfl
@[simp] theorem memWrite_mem : (s.memWrite a v).mem = Memory.write s.mem a.toNat v := rfl
@[simp] theorem memWrite_out : (s.memWrite a v).out = s.out := rfl

@[simp] theorem raise_x : (raise c s).x = s.x := rfl
@[simp] theorem raise_pc : (raise c s).pc = s.pc := rfl
@[simp] theorem raise_fl : (raise c s).fl = s.fl := rfl
@[simp] theorem raise_run : (raise c s).run = .faulted c := rfl
@[simp] theorem raise_mem : (raise c s).mem = s.mem := rfl
@[simp] theorem raise_out : (raise c s).out = s.out := rfl

@[simp] theorem stackStore_x : (stackStore s v).x = s.x := rfl
@[simp] theorem stackStore_pc : (stackStore s v).pc = s.pc := rfl
@[simp] theorem stackStore_fl : (stackStore s v).fl = s.fl := rfl
@[simp] theorem stackStore_run : (stackStore s v).run = s.run := rfl
@[simp] theorem stackStore_mem : (stackStore s v).mem = Memory.write s.mem s.sp.toNat v := rfl
@[simp] theorem stackStore_out : (stackStore s v).out = s.out := rfl

/-- A register reads the value just set. -/
@[simp] theorem RegFile.get_set_same (x : RegFile) (r : Reg) (v : Byte) : (x.set r v).get r = v := by
  cases r <;> rfl

/-- Setting a register leaves every other one. -/
theorem RegFile.get_set_other (x : RegFile) {r q : Reg} (v : Byte) (h : q ≠ r) : (x.set r v).get q = x.get q := by
  cases r <;> cases q <;> first | rfl | exact absurd rfl h

/-- The later of two writes to one register stands. -/
@[simp] theorem RegFile.set_set_same (x : RegFile) (r : Reg) (v w : Byte) : (x.set r v).set r w = x.set r w := by
  cases r <;> rfl

/-- Register files that read alike are the same data. -/
theorem RegFile.ext_get {x y : RegFile} (h : ∀ r, x.get r = y.get r) : x = y := by
  cases x
  cases y
  simpa [RegFile.get] using
    ⟨h .r0, h .r1, h .r2, h .r3, h .r4, h .r5, h .r6, h .r7⟩

@[simp] theorem reg_setReg_same : (s.setReg r v).reg r = v := RegFile.get_set_same _ _ _

theorem reg_setReg_other {q : Reg} (h : q ≠ r) : (s.setReg r v).reg q = s.reg q := RegFile.get_set_other _ _ h

@[simp] theorem sp_setReg_sp : (s.setReg Reg.sp v).sp = v := reg_setReg_same _ _ _

end Sys2Proof.Machine
end

