-- ==== Sys2Proof/Laws/Memory.lean ====
section
/-!
SUPPORT. The laws of memory: what a read gives after a write, and that every memory operation keeps the canonical form.
-/

namespace Sys2Proof.Machine

/-- Taking the cells of one address out leaves what every other address reads as. -/
theorem Memory.read_filter_other {a b : Nat} (h : b ≠ a) :
    ∀ m : Memory, Memory.read (m.filter fun c => c.1 != a) b = Memory.read m b
  | [] => rfl
  | c :: m => by
    by_cases hc : c.1 = a
    · simpa [hc, Memory.read, Ne.symm h] using Memory.read_filter_other h m
    · simp [hc, Memory.read, Memory.read_filter_other h m]

/-- An address whose cells were taken out reads as an unlisted one. -/
theorem Memory.read_filter_same (a : Nat) :
    ∀ m : Memory, Memory.read (m.filter fun c => c.1 != a) a = Memory.unlisted
  | [] => rfl
  | c :: m => by
    by_cases hc : c.1 = a
    · simpa [hc] using Memory.read_filter_same a m
    · simp [hc, Memory.read, Memory.read_filter_same a m]

/-- An inserted cell leaves what every other address reads as. -/
theorem Memory.read_insert_other {c : Host.Cell} {b : Nat} (h : b ≠ c.1) :
    ∀ m : Memory, Memory.read (Memory.insert c m) b = Memory.read m b
  | [] => by simp [Memory.insert, Memory.read, Ne.symm h]
  | d :: m => by
    by_cases hd : c.1 < d.1
    · simp [Memory.insert, hd, Memory.read, Ne.symm h]
    · simp [Memory.insert, hd, Memory.read, Memory.read_insert_other h m]

/-- A cell inserted at an address the list does not hold is what that address reads as. -/
theorem Memory.read_insert_same {c : Host.Cell} :
    ∀ m : Memory, (∀ d ∈ m, d.1 ≠ c.1) → Memory.read (Memory.insert c m) c.1 = c.2
  | [], _ => by simp [Memory.insert, Memory.read]
  | d :: m, h => by
    by_cases hd : c.1 < d.1
    · simp [Memory.insert, hd, Memory.read]
    · have hne : d.1 ≠ c.1 := h d (by simp)
      simp [Memory.insert, hd, Memory.read, hne, Memory.read_insert_same m fun e he => h e (by simp [he])]

/-- What every address reads as after a write: the value written at that address, and what it read as before elsewhere.
It holds of every list of cells, canonical or not. -/
theorem Memory.read_write (m : Memory) (a b : Nat) (v : Byte) :
    Memory.read (Memory.write m a v) b = if b = a then v else Memory.read m b := by
  unfold Memory.write
  by_cases hv : v = Memory.unlisted
  · by_cases hb : b = a
    · subst hb
      simp [hv, Memory.read_filter_same]
    · simp [hv, hb, Memory.read_filter_other hb]
  · by_cases hb : b = a
    · subst hb
      simpa [hv] using Memory.read_insert_same (c := (b, v)) (m.filter fun c => c.1 != b) (by simp)
    · simp [hv, hb, Memory.read_insert_other (c := (a, v)) hb, Memory.read_filter_other hb]

/-- The cells of an insertion are the new one and the old ones. -/
theorem Memory.mem_insert {c e : Host.Cell} : ∀ m : Memory, e ∈ Memory.insert c m ↔ e = c ∨ e ∈ m
  | [] => by simp [Memory.insert]
  | d :: m => by
    by_cases hd : c.1 < d.1
    · simp [Memory.insert, hd]
    · simp only [Memory.insert, hd, if_false, List.mem_cons, Memory.mem_insert m]
      tauto

/-- Insertion of a cell at a new address keeps the addresses rising. -/
theorem Memory.sorted_insert {c : Host.Cell} :
    ∀ m : Memory, (∀ d ∈ m, d.1 ≠ c.1) → m.Pairwise (fun d e => d.1 < e.1) →
      (Memory.insert c m).Pairwise (fun d e => d.1 < e.1)
  | [], _, _ => by simp [Memory.insert]
  | d :: m, hne, h => by
    obtain ⟨hd, hm⟩ := List.pairwise_cons.mp h
    by_cases hlt : c.1 < d.1
    · simp only [Memory.insert, hlt, if_true]
      refine List.pairwise_cons.mpr ⟨?_, h⟩
      intro e he
      rcases List.mem_cons.mp he with rfl | he
      · exact hlt
      · exact hlt.trans (hd e he)
    · simp only [Memory.insert, hlt, if_false]
      refine List.pairwise_cons.mpr ⟨?_, Memory.sorted_insert m (fun e he => hne e (by simp [he])) hm⟩
      intro e he
      rcases (Memory.mem_insert m).mp he with rfl | he
      · have := hne d (by simp)
        omega
      · exact hd e he

/-- A write keeps the canonical form. -/
theorem Memory.wf_write {m : Memory} (h : Memory.wf m) {a : Nat} (ha : a < Config.MEM_SIZE) (v : Byte) :
    Memory.wf (Memory.write m a v) := by
  obtain ⟨hs, hc⟩ := h
  have hs' : (m.filter fun c => c.1 != a).Pairwise (fun c d => c.1 < d.1) := hs.filter _
  have hc' : ∀ c ∈ m.filter fun c => c.1 != a, c.1 < Config.MEM_SIZE ∧ c.2 ≠ Memory.unlisted :=
    fun c hm => hc c (List.mem_of_mem_filter hm)
  unfold Memory.write
  by_cases hv : v = Memory.unlisted
  · simp only [hv, if_true]
    exact ⟨hs', hc'⟩
  · simp only [hv, if_false]
    refine ⟨Memory.sorted_insert _ (by simp) hs', ?_⟩
    intro c hm
    rcases (Memory.mem_insert _).mp hm with rfl | hm
    · exact ⟨ha, hv⟩
    · exact hc' c hm

/-- Storing a list of bytes keeps the canonical form. -/
theorem Memory.wf_store : ∀ (bytes : List Byte) {m : Memory} (a : Nat), Memory.wf m → Memory.wf (Memory.store m a bytes)
  | [], _, _, h => h
  | b :: rest, m, a, h => by
    unfold Memory.store
    split
    · exact Memory.wf_store rest (a + 1) (Memory.wf_write h ‹_› b)
    · exact h

/-- The empty memory has the canonical form. -/
theorem Memory.wf_nil : Memory.wf [] := by simp [Memory.wf]

/-- Reset memory has the canonical form. -/
theorem reset_mem_wf : Memory.wf State.reset.mem := Memory.wf_nil

/-- The core's one memory write keeps the canonical form: its address is a byte (R53). -/
theorem memWrite_wf {s : State} (h : Memory.wf s.mem) (a v : Byte) : Memory.wf (s.memWrite a v).mem :=
  Memory.wf_write h a.isLt v

/-- A store through the stack pointer keeps the canonical form. -/
theorem stackStore_wf {s : State} (h : Memory.wf s.mem) (v : Byte) : Memory.wf (stackStore s v).mem :=
  memWrite_wf h _ v

end Sys2Proof.Machine
end

