-- ==== Sys2Proof/Laws/Ops.lean ====
section
/-!
SUPPORT. For each shared operation one lemma that says everything it can do.
-/

namespace Sys2Proof.Machine

/-- `advance` either moves the pc on or takes `NEXT_PC` with the pc kept. -/
theorem advance_cases (len : Nat) (s : State) :
    (s.pc.toNat + len ≤ 255 ∧ advance len s = s.setPc (BitVec.ofNat 8 (s.pc.toNat + len))) ∨
    (255 < s.pc.toNat + len ∧ advance len s = raise (.address .nextPc s.pc (s.pc.toNat + len)) s) := by
  unfold advance addressFault
  by_cases h : s.pc.toNat + len ≤ 255
  · exact .inl ⟨h, if_pos h⟩
  · exact .inr ⟨by omega, if_neg h⟩

@[simp] theorem advance_x (len : Nat) (s : State) : (advance len s).x = s.x := by
  unfold advance
  split <;> rfl

@[simp] theorem advance_fl (len : Nat) (s : State) : (advance len s).fl = s.fl := by
  unfold advance
  split <;> rfl

@[simp] theorem advance_mem (len : Nat) (s : State) : (advance len s).mem = s.mem := by
  unfold advance
  split <;> rfl

@[simp] theorem advance_out (len : Nat) (s : State) : (advance len s).out = s.out := by
  unfold advance
  split <;> rfl

/-- Going on after a check: either the check failed and its fault is taken, or it goes on with the check's value. -/
theorem orRaise_eq_next {α : Type} {s t : State} {check : Except FaultRec α} {go : α → Result}
    (h : orRaise s check go = .next t) :
    (∃ r, check = .error r ∧ t = raise r s) ∨ ∃ v, check = .ok v ∧ go v = .next t := by
  cases check with
  | error r => exact .inl ⟨r, rfl, by simpa [orRaise] using h.symm⟩
  | ok v => exact .inr ⟨v, rfl, h⟩

@[simp] theorem orRaise_ok {α : Type} (s : State) (v : α) (go : α → Result) : orRaise s (.ok v) go = go v := rfl

@[simp] theorem orRaise_error {α : Type} (s : State) (r : FaultRec) (go : α → Result) :
    orRaise s (.error r) go = .next (raise r s) := rfl

/-- `regidx` gives the register the byte names, or `REG_INDEX` with the byte. -/
theorem regidx_cases (s : State) (b : Byte) :
    (∃ r, Reg.ofByte b = some r ∧ regidx s b = .ok r) ∨
    (Reg.ofByte b = none ∧ regidx s b = .error (.address .regIndex s.pc b.toNat)) := by
  unfold regidx addressFault
  cases Reg.ofByte b with
  | some r => exact .inl ⟨r, rfl, rfl⟩
  | none => exact .inr ⟨rfl, rfl⟩

/-- A byte names a register exactly when it is at most 7. -/
theorem ofByte_eq_none_iff (b : Byte) : Reg.ofByte b = none ↔ 7 < b.toNat := by
  unfold Reg.ofByte
  split <;> simp_all
  omega

/-- The index of a register names it. -/
@[simp] theorem ofByte_toByte (r : Reg) : Reg.ofByte r.toByte = some r := by
  cases r <;> rfl

/-- The byte that names a register is its index. -/
theorem toByte_of_ofByte {b : Byte} {r : Reg} (h : Reg.ofByte b = some r) : r.toByte = b := by
  unfold Reg.ofByte at h
  apply BitVec.eq_of_toNat_eq
  split at h <;> simp_all <;> subst h <;> rfl

/-- An instruction with one register operand takes `REG_INDEX` or goes on with the register. -/
theorem withReg_eq_next {opa : Byte} {s t : State} {go : Reg → Result} (h : withReg opa s go = .next t) :
    (Reg.ofByte opa = none ∧ t = raise (.address .regIndex s.pc opa.toNat) s) ∨
    ∃ a, Reg.ofByte opa = some a ∧ go a = .next t := by
  rcases regidx_cases s opa with ⟨r, hr, he⟩ | ⟨hn, he⟩
  · exact .inr ⟨r, hr, by simpa [withReg, he] using h⟩
  · exact .inl ⟨hn, by simpa [withReg, he] using h.symm⟩

@[simp] theorem withReg_of_some {opa : Byte} {a : Reg} (h : Reg.ofByte opa = some a) (s : State) (go : Reg → Result) :
    withReg opa s go = go a := by
  simp [withReg, regidx, h]

@[simp] theorem withReg_of_none {opa : Byte} (h : Reg.ofByte opa = none) (s : State) (go : Reg → Result) :
    withReg opa s go = .next (raise (.address .regIndex s.pc opa.toNat) s) := by
  simp [withReg, regidx, h, addressFault]

/-- An instruction with two register operands takes `REG_INDEX` for the first bad byte or goes on with the registers. -/
theorem withRegs_eq_next {opa opb : Byte} {s t : State} {go : Reg → Reg → Result}
    (h : withRegs opa opb s go = .next t) :
    (∃ b, (b = opa ∨ b = opb) ∧ Reg.ofByte b = none ∧ t = raise (.address .regIndex s.pc b.toNat) s) ∨
    ∃ a b, Reg.ofByte opa = some a ∧ Reg.ofByte opb = some b ∧ go a b = .next t := by
  rcases withReg_eq_next h with ⟨hn, rfl⟩ | ⟨a, ha, h⟩
  · exact .inl ⟨opa, .inl rfl, hn, rfl⟩
  · rcases withReg_eq_next h with ⟨hn, rfl⟩ | ⟨b, hb, h⟩
    · exact .inl ⟨opb, .inr rfl, hn, rfl⟩
    · exact .inr ⟨a, b, ha, hb, h⟩

/-- The decrement of a push takes `STACK_LOW` at 0 and else decrements register 7 alone. -/
theorem stackDecrement_cases (s : State) :
    (s.sp = 0x00 ∧ stackDecrement s = .error (.address .stackLow s.pc (-1))) ∨
    (s.sp ≠ 0x00 ∧ stackDecrement s = .ok (s.setReg Reg.sp (s.sp - 1))) := by
  unfold stackDecrement addressFault
  by_cases h : s.sp = 0x00
  · exact .inl ⟨h, if_pos h⟩
  · exact .inr ⟨h, if_neg h⟩

/-- The increment of a pop takes `STACK_HIGH` at 255 and else adds 1. -/
theorem stackIncrement_cases (s : State) (base : Byte) :
    (base = 0xFF ∧ stackIncrement s base = .error (.address .stackHigh s.pc 256)) ∨
    (base ≠ 0xFF ∧ stackIncrement s base = .ok (base + 1)) := by
  unfold stackIncrement addressFault
  by_cases h : base = 0xFF
  · exact .inl ⟨h, if_pos h⟩
  · exact .inr ⟨h, if_neg h⟩

/-- CALL's return address is `pc + 2`, or `RETURN_ADDR` is taken. -/
theorem returnAddress_cases (s : State) :
    (s.pc.toNat + 2 ≤ 255 ∧ returnAddress s = .ok (s.pc + 2)) ∨
    (255 < s.pc.toNat + 2 ∧ returnAddress s = .error (.address .returnAddr s.pc (s.pc.toNat + 2))) := by
  unfold returnAddress addressFault
  by_cases h : s.pc.toNat + 2 ≤ 255
  · exact .inl ⟨h, if_pos h⟩
  · exact .inr ⟨by omega, if_neg h⟩

/-- Where the byte stored by a push lands, and that no other cell changes. -/
theorem stackStore_read (s : State) (v : Byte) (a : Nat) :
    Memory.read (stackStore s v).mem a = if a = s.sp.toNat then v else Memory.read s.mem a :=
  Memory.read_write _ _ _ _

/-- Compare writes one of the three one-hot values. -/
theorem compareFlags_oneHot (va vb : Byte) : flagOneHot (compareFlags va vb) = true := by
  unfold compareFlags
  split
  · rfl
  · split <;> rfl

/-- An instruction on the ALU's reachable tags changes one register or the flags, then advances. -/
theorem aluInstruction_mul (a b : Reg) (s : State) :
    aluInstruction .mul a b s = .next (advance 3 (s.setReg a (s.reg a * s.reg b))) := rfl

theorem aluInstruction_add (a b : Reg) (s : State) :
    aluInstruction .add a b s = .next (advance 3 (s.setReg a (s.reg a + s.reg b))) := rfl

theorem aluInstruction_cmp (a b : Reg) (s : State) :
    aluInstruction .cmp a b s = .next (advance 3 (s.setFl (compareFlags (s.reg a) (s.reg b)))) := rfl

/-- A transfer sets the pc to the register when taken, and else advances. -/
theorem jumpIf_cases (taken : Bool) (a : Reg) (s : State) :
    (taken = true ∧ jumpIf taken a s = s.setPc (s.reg a)) ∨ (taken = false ∧ jumpIf taken a s = advance 2 s) := by
  cases taken
  · exact .inr ⟨rfl, rfl⟩
  · exact .inl ⟨rfl, rfl⟩

end Sys2Proof.Machine
end

