-- ==== Sys2Proof/Laws/Exec.lean ====
section
/-!
SUPPORT. For each instruction one inversion lemma: everything it can do when it answers a next state. Later proofs cite
these and unfold no meaning.
-/

namespace Sys2Proof.Machine

variable {s t : State} {opa opb imm : Byte}

/-- The state after the decrement of a push. -/
def pushed (s : State) : State := s.setReg Reg.sp (s.sp - 1)

theorem exec_hlt_cases (h : exec .hlt s = .next t) : t = (s.setPc (haltPc s.pc)).halt := by
  simpa [exec, execHlt] using h.symm

theorem exec_ldi_cases (h : exec (.ldi opa imm) s = .next t) :
    (Reg.ofByte opa = none ∧ t = raise (.address .regIndex s.pc opa.toNat) s) ∨
    ∃ a, Reg.ofByte opa = some a ∧ t = advance 3 (s.setReg a imm) := by
  rcases withReg_eq_next h with h | ⟨a, ha, h⟩
  · exact .inl h
  · exact .inr ⟨a, ha, by simpa [literal] using h.symm⟩

theorem exec_prn_cases (h : exec (.prn opa) s = .next t) :
    (Reg.ofByte opa = none ∧ t = raise (.address .regIndex s.pc opa.toNat) s) ∨
    ∃ a, Reg.ofByte opa = some a ∧ t = advance 2 (s.emit (s.reg a)) := by
  rcases withReg_eq_next h with h | ⟨a, ha, h⟩
  · exact .inl h
  · exact .inr ⟨a, ha, by simpa using h.symm⟩

theorem exec_mul_cases (h : exec (.mul opa opb) s = .next t) :
    (∃ b, (b = opa ∨ b = opb) ∧ Reg.ofByte b = none ∧ t = raise (.address .regIndex s.pc b.toNat) s) ∨
    ∃ a b, Reg.ofByte opa = some a ∧ Reg.ofByte opb = some b ∧ t = advance 3 (s.setReg a (s.reg a * s.reg b)) := by
  rcases withRegs_eq_next h with h | ⟨a, b, ha, hb, h⟩
  · exact .inl h
  · exact .inr ⟨a, b, ha, hb, by simpa [aluInstruction_mul] using h.symm⟩

theorem exec_add_cases (h : exec (.add opa opb) s = .next t) :
    (∃ b, (b = opa ∨ b = opb) ∧ Reg.ofByte b = none ∧ t = raise (.address .regIndex s.pc b.toNat) s) ∨
    ∃ a b, Reg.ofByte opa = some a ∧ Reg.ofByte opb = some b ∧ t = advance 3 (s.setReg a (s.reg a + s.reg b)) := by
  rcases withRegs_eq_next h with h | ⟨a, b, ha, hb, h⟩
  · exact .inl h
  · exact .inr ⟨a, b, ha, hb, by simpa [aluInstruction_add] using h.symm⟩

theorem exec_cmp_cases (h : exec (.cmp opa opb) s = .next t) :
    (∃ b, (b = opa ∨ b = opb) ∧ Reg.ofByte b = none ∧ t = raise (.address .regIndex s.pc b.toNat) s) ∨
    ∃ a b, Reg.ofByte opa = some a ∧ Reg.ofByte opb = some b ∧
      t = advance 3 (s.setFl (compareFlags (s.reg a) (s.reg b))) := by
  rcases withRegs_eq_next h with h | ⟨a, b, ha, hb, h⟩
  · exact .inl h
  · exact .inr ⟨a, b, ha, hb, by simpa [aluInstruction_cmp] using h.symm⟩

theorem exec_push_cases (h : exec (.push opa) s = .next t) :
    (Reg.ofByte opa = none ∧ t = raise (.address .regIndex s.pc opa.toNat) s) ∨
    (s.sp = 0x00 ∧ t = raise (.address .stackLow s.pc (-1)) s) ∨
    ∃ a, Reg.ofByte opa = some a ∧ s.sp ≠ 0x00 ∧
      t = advance 2 (stackStore (pushed s) ((pushed s).reg a)) := by
  rcases withReg_eq_next h with h | ⟨a, ha, h⟩
  · exact .inl h
  · rcases stackDecrement_cases s with ⟨hz, he⟩ | ⟨hz, he⟩
    · exact .inr (.inl ⟨hz, by simpa [he] using h.symm⟩)
    · exact .inr (.inr ⟨a, ha, hz, by simpa [he, pushed] using h.symm⟩)

theorem exec_pop_cases (h : exec (.pop opa) s = .next t) :
    (Reg.ofByte opa = none ∧ t = raise (.address .regIndex s.pc opa.toNat) s) ∨
    ∃ a, Reg.ofByte opa = some a ∧
      ((popBase a s = 0xFF ∧ t = raise (.address .stackHigh s.pc 256) s) ∨
        (popBase a s ≠ 0xFF ∧ t = advance 2 ((s.setReg a (stackTop s)).setReg Reg.sp (popBase a s + 1)))) := by
  rcases withReg_eq_next h with h | ⟨a, ha, h⟩
  · exact .inl h
  · rcases stackIncrement_cases s (popBase a s) with ⟨hz, he⟩ | ⟨hz, he⟩
    · exact .inr ⟨a, ha, .inl ⟨hz, by simpa [he] using h.symm⟩⟩
    · exact .inr ⟨a, ha, .inr ⟨hz, by simpa [he] using h.symm⟩⟩

theorem exec_call_cases (h : exec (.call opa) s = .next t) :
    (Reg.ofByte opa = none ∧ t = raise (.address .regIndex s.pc opa.toNat) s) ∨
    (255 < s.pc.toNat + 2 ∧ t = raise (.address .returnAddr s.pc (s.pc.toNat + 2)) s) ∨
    (s.pc.toNat + 2 ≤ 255 ∧ s.sp = 0x00 ∧ t = raise (.address .stackLow s.pc (-1)) s) ∨
    ∃ a, Reg.ofByte opa = some a ∧ s.pc.toNat + 2 ≤ 255 ∧ s.sp ≠ 0x00 ∧
      t = (stackStore (pushed s) (s.pc + 2)).setPc ((pushed s).reg a) := by
  rcases withReg_eq_next h with h | ⟨a, ha, h⟩
  · exact .inl h
  · rcases returnAddress_cases s with ⟨hp, hr⟩ | ⟨hp, hr⟩
    · rcases stackDecrement_cases s with ⟨hz, he⟩ | ⟨hz, he⟩
      · exact .inr (.inr (.inl ⟨hp, hz, by simpa [hr, he] using h.symm⟩))
      · exact .inr (.inr (.inr ⟨a, ha, hp, hz, by simpa [hr, he, pushed] using h.symm⟩))
    · exact .inr (.inl ⟨hp, by simpa [hr] using h.symm⟩)

theorem exec_ret_cases (h : exec .ret s = .next t) :
    (s.sp = 0xFF ∧ t = raise (.address .stackHigh s.pc 256) s) ∨
    (s.sp ≠ 0xFF ∧ t = (s.setReg Reg.sp (s.sp + 1)).setPc (stackTop s)) := by
  rcases stackIncrement_cases s s.sp with ⟨hz, he⟩ | ⟨hz, he⟩
  · exact .inl ⟨hz, by simpa [exec, execRet, he] using h.symm⟩
  · exact .inr ⟨hz, by simpa [exec, execRet, he] using h.symm⟩

theorem exec_jmp_cases (h : exec (.jmp opa) s = .next t) :
    (Reg.ofByte opa = none ∧ t = raise (.address .regIndex s.pc opa.toNat) s) ∨
    ∃ a, Reg.ofByte opa = some a ∧ t = jumpIf true a s := by
  rcases withReg_eq_next h with h | ⟨a, ha, h⟩
  · exact .inl h
  · exact .inr ⟨a, ha, by simpa using h.symm⟩

theorem exec_jeq_cases (h : exec (.jeq opa) s = .next t) :
    (Reg.ofByte opa = none ∧ t = raise (.address .regIndex s.pc opa.toNat) s) ∨
    ∃ a, Reg.ofByte opa = some a ∧ t = jumpIf (flagIsEqual s.fl) a s := by
  rcases withReg_eq_next h with h | ⟨a, ha, h⟩
  · exact .inl h
  · exact .inr ⟨a, ha, by simpa using h.symm⟩

theorem exec_jne_cases (h : exec (.jne opa) s = .next t) :
    (Reg.ofByte opa = none ∧ t = raise (.address .regIndex s.pc opa.toNat) s) ∨
    ∃ a, Reg.ofByte opa = some a ∧ t = jumpIf (!flagIsEqual s.fl) a s := by
  rcases withReg_eq_next h with h | ⟨a, ha, h⟩
  · exact .inl h
  · exact .inr ⟨a, ha, by simpa using h.symm⟩

end Sys2Proof.Machine
end

