-- ==== Sys2Proof/Laws/Fetch.lean ====
section
/-!
SUPPORT. What the fetch phase and the step can do.
-/

namespace Sys2Proof.Machine

/-- An operand byte is read, or `OPERAND_FETCH` is taken for an address above 255. -/
theorem fetchOperand_cases (s : State) (k : Nat) :
    (s.pc.toNat + k ≤ 255 ∧ fetchOperand s k = .ok (s.memRead (BitVec.ofNat 8 (s.pc.toNat + k)))) ∨
    (255 < s.pc.toNat + k ∧ fetchOperand s k = .error (.address .operandFetch s.pc (s.pc.toNat + k))) := by
  unfold fetchOperand addressFault
  by_cases h : s.pc.toNat + k ≤ 255
  · exact .inl ⟨h, if_pos h⟩
  · exact .inr ⟨by omega, if_neg h⟩

/-- The fetch phase answers an instruction of the kind its opcode byte decodes to, or one of the two fetch faults. -/
theorem fetchInstr_cases (s : State) :
    (∃ i, fetchInstr s = .ok i ∧ decodeKind (s.memRead s.pc) = some i.kind) ∨
    (decodeKind (s.memRead s.pc) = none ∧
      fetchInstr s = .error (.unrecognizedOpcode s.pc (s.memRead s.pc))) ∨
    (∃ k n, decodeKind (s.memRead s.pc) = some k ∧ 255 < s.pc.toNat + n ∧ 1 ≤ n ∧ n < k.length ∧
      fetchInstr s = .error (.address .operandFetch s.pc (s.pc.toNat + n))) := by
  unfold fetchInstr
  cases hk : decodeKind (s.memRead s.pc) with
  | none => exact .inr (.inl ⟨rfl, rfl⟩)
  | some k =>
    rcases fetchOperand_cases s 1 with ⟨_, h1⟩ | ⟨g1, h1⟩ <;>
      rcases fetchOperand_cases s 2 with ⟨_, h2⟩ | ⟨g2, h2⟩ <;>
      cases k <;> simp [Kind.shape, fetchOperands, h1, h2, Instr.kind, Kind.length] <;>
      first
        | exact ⟨1, by omega, by omega, by omega, by simp⟩
        | exact ⟨2, by omega, by omega, by omega, by simp⟩

/-- The byte of this hardware's tuple that a decoded byte is. -/
theorem decodeKind_eq_some_iff (b : Byte) (k : Kind) : decodeKind b = some k ↔ b = Config.OP.value k := by
  constructor
  · intro h
    have h := List.find?_some h
    exact (beq_iff_eq.mp h).symm
  · rintro rfl
    cases k <;> rfl

/-- A byte that decodes to nothing is none of the thirteen. -/
theorem decodeKind_eq_none_iff (b : Byte) : decodeKind b = none ↔ ∀ k, b ≠ Config.OP.value k := by
  simp only [ne_eq, ← decodeKind_eq_some_iff, Option.eq_none_iff_forall_ne_some]

/-- The bytes at the pc are the opcode byte and the bytes after it up to address 255. -/
theorem bytesFromPc_eq_cons (s : State) :
    s.bytesFromPc = s.memRead s.pc ::
      (List.range (255 - s.pc.toNat)).map fun k => s.memRead (BitVec.ofNat 8 (s.pc.toNat + (k + 1))) := by
  have hp := s.pc.isLt
  rw [State.bytesFromPc, show 256 - s.pc.toNat = 255 - s.pc.toNat + 1 by omega, List.range_succ_eq_map]
  simp [Function.comp_def]

/-- A step of a running machine takes the fault of the fetch phase or executes the fetched instruction. -/
theorem step_of_running {s : State} (h : s.run = .running) :
    step s = orRaise s (fetchInstr s) fun i => exec i s := by
  simp [step, stopped, h]

/-- A step that answers a next state was taken by a running machine. -/
theorem running_of_step {s t : State} (h : step s = .next t) : s.run = .running := by
  unfold step stopped at h
  cases hr : s.run with
  | running => rfl
  | halted => simp [hr] at h
  | faulted r => simp [hr] at h

/-- Everything a step that answers a next state did: a fault of the fetch phase, or the fetched instruction. -/
theorem step_eq_next {s t : State} (h : step s = .next t) :
    s.run = .running ∧
      ((∃ r, fetchInstr s = .error r ∧ t = raise r s) ∨ ∃ i, fetchInstr s = .ok i ∧ exec i s = .next t) := by
  have hr := running_of_step h
  rw [step_of_running hr] at h
  exact ⟨hr, orRaise_eq_next h⟩

end Sys2Proof.Machine
end

