-- ==== Sys2Proof/Laws/PerInstr.lean ====
section
/-!
SUPPORT. Laws made instruction by instruction: statements about an instruction as syntax, with one lemma for each
constructor of `Instr`. The decoder's round trip is put together from them.
-/

namespace Sys2Proof.Laws

/-- The encoding of an instruction has the length of its kind, whatever the opcode tuple (R75, R78). -/
def EncodedLength.Statement (i : Instr) : Prop :=
  ∀ T : OpTable, (encodeWith T i).length = i.kind.length

theorem EncodedLength.hlt : EncodedLength.Statement .hlt := fun _ => rfl
theorem EncodedLength.ldi (opa imm : Byte) : EncodedLength.Statement (.ldi opa imm) := fun _ => rfl
theorem EncodedLength.prn (opa : Byte) : EncodedLength.Statement (.prn opa) := fun _ => rfl
theorem EncodedLength.mul (opa opb : Byte) : EncodedLength.Statement (.mul opa opb) := fun _ => rfl
theorem EncodedLength.add (opa opb : Byte) : EncodedLength.Statement (.add opa opb) := fun _ => rfl
theorem EncodedLength.cmp (opa opb : Byte) : EncodedLength.Statement (.cmp opa opb) := fun _ => rfl
theorem EncodedLength.push (opa : Byte) : EncodedLength.Statement (.push opa) := fun _ => rfl
theorem EncodedLength.pop (opa : Byte) : EncodedLength.Statement (.pop opa) := fun _ => rfl
theorem EncodedLength.call (opa : Byte) : EncodedLength.Statement (.call opa) := fun _ => rfl
theorem EncodedLength.ret : EncodedLength.Statement .ret := fun _ => rfl
theorem EncodedLength.jmp (opa : Byte) : EncodedLength.Statement (.jmp opa) := fun _ => rfl
theorem EncodedLength.jeq (opa : Byte) : EncodedLength.Statement (.jeq opa) := fun _ => rfl
theorem EncodedLength.jne (opa : Byte) : EncodedLength.Statement (.jne opa) := fun _ => rfl

/-- The format of an instruction's kind takes back its operand bytes and leaves what follows them (R76, R83). -/
def ShapeTakesOperands.Statement (i : Instr) : Prop :=
  ∀ rest : List Byte, i.kind.shape.take (i.operands ++ rest) = .ok (i, rest)

theorem ShapeTakesOperands.hlt : ShapeTakesOperands.Statement .hlt := fun _ => rfl
theorem ShapeTakesOperands.ldi (opa imm : Byte) : ShapeTakesOperands.Statement (.ldi opa imm) := fun _ => rfl
theorem ShapeTakesOperands.prn (opa : Byte) : ShapeTakesOperands.Statement (.prn opa) := fun _ => rfl
theorem ShapeTakesOperands.mul (opa opb : Byte) : ShapeTakesOperands.Statement (.mul opa opb) := fun _ => rfl
theorem ShapeTakesOperands.add (opa opb : Byte) : ShapeTakesOperands.Statement (.add opa opb) := fun _ => rfl
theorem ShapeTakesOperands.cmp (opa opb : Byte) : ShapeTakesOperands.Statement (.cmp opa opb) := fun _ => rfl
theorem ShapeTakesOperands.push (opa : Byte) : ShapeTakesOperands.Statement (.push opa) := fun _ => rfl
theorem ShapeTakesOperands.pop (opa : Byte) : ShapeTakesOperands.Statement (.pop opa) := fun _ => rfl
theorem ShapeTakesOperands.call (opa : Byte) : ShapeTakesOperands.Statement (.call opa) := fun _ => rfl
theorem ShapeTakesOperands.ret : ShapeTakesOperands.Statement .ret := fun _ => rfl
theorem ShapeTakesOperands.jmp (opa : Byte) : ShapeTakesOperands.Statement (.jmp opa) := fun _ => rfl
theorem ShapeTakesOperands.jeq (opa : Byte) : ShapeTakesOperands.Statement (.jeq opa) := fun _ => rfl
theorem ShapeTakesOperands.jne (opa : Byte) : ShapeTakesOperands.Statement (.jne opa) := fun _ => rfl

end Sys2Proof.Laws
end

