-- ==== Sys2Proof/Tests/Slice0.lean ====
section
/-!
SUPPORT. The model's own tests. Expected values come from spec/: the encodings of R76 and R79, the vectors V1 to V58 of
spec/95_test_vectors.md, and rules worked by hand where a comment says so. After the tests, one witness for each statement
of Obligations.lean that has hypotheses: concrete states and operands that meet them together.
-/

namespace Sys2Proof.Tests

open Sys2Proof.Machine

/-- The reset state with bytes from an address on, and the pc there. -/
def cpu (pc : Nat) (bytes : List Nat) : State :=
  { State.reset with pc := BitVec.ofNat 8 pc, mem := Memory.store [] pc (bytes.map (BitVec.ofNat 8)) }

/-- The state has ended with this record and is otherwise this one. -/
def faults (s : State) (r : FaultRec) (t : State) : Bool := decide (t = { s with run := .faulted r })

/-- The outcome is a next state with this property. -/
def nextIs (o : Result) (p : State → Bool) : Bool :=
  match o with
  | .next t => p t
  | .fault _ => false
  | .refused _ => false

/-- The outcome is this fault. -/
def stopsWith (o : Result) (f : Fault) : Bool :=
  match o with
  | .next _ => false
  | .fault g => decide (g = f)
  | .refused _ => false

/-- What the decoder answers on bytes. -/
def decodesTo (bytes : List Nat) (i : Instr) (rest : List Nat) : Bool :=
  match decode (bytes.map (BitVec.ofNat 8)) with
  | .ok (j, more) => decide (j = i ∧ more = rest.map (BitVec.ofNat 8))
  | .error _ => false

/-- The decoder rejects the bytes with this reason. -/
def rejects (bytes : List Nat) (e : DecodeError) : Bool :=
  match decode (bytes.map (BitVec.ofNat 8)) with
  | .ok _ => false
  | .error d => decide (d = e)

/-! ## Well-formedness: an ill-formed term for each check (R77, R104) -/

theorem test_wf_accepts : (Instr.ldi 7 255).wellFormed = true ∧ Instr.hlt.wellFormed = true := by decide
theorem test_wf_refuses_ldi : (Instr.ldi 8 1).wellFormed = false := by decide
theorem test_wf_refuses_prn : (Instr.prn 8).wellFormed = false := by decide
theorem test_wf_refuses_mul_first : (Instr.mul 9 0).wellFormed = false := by decide
theorem test_wf_refuses_mul_second : (Instr.mul 0 8).wellFormed = false := by decide
theorem test_wf_refuses_add : (Instr.add 255 0).wellFormed = false ∧ (Instr.add 0 255).wellFormed = false := by decide
theorem test_wf_refuses_cmp : (Instr.cmp 8 0).wellFormed = false ∧ (Instr.cmp 0 8).wellFormed = false := by decide
theorem test_wf_refuses_push : (Instr.push 8).wellFormed = false := by decide
theorem test_wf_refuses_pop : (Instr.pop 8).wellFormed = false := by decide
theorem test_wf_refuses_call : (Instr.call 128).wellFormed = false := by decide
theorem test_wf_refuses_jmp : (Instr.jmp 8).wellFormed = false := by decide
theorem test_wf_refuses_jeq : (Instr.jeq 9).wellFormed = false := by decide
theorem test_wf_refuses_jne : (Instr.jne 10).wellFormed = false := by decide

/-! ## Decoding: a word of every row, written out in the bits of R79 -/

theorem test_decode_hlt : decodesTo [0b00000001, 0x47] .hlt [0x47] = true := by decide
theorem test_decode_ldi : decodesTo [0b10000010, 0b00000000, 0b00001000] (.ldi 0 8) [] = true := by decide
theorem test_decode_prn : decodesTo [0b01000111, 0b00000010] (.prn 2) [] = true := by decide
theorem test_decode_mul : decodesTo [0b10100010, 0b00000000, 0b00000001] (.mul 0 1) [] = true := by decide
theorem test_decode_add : decodesTo [0b10100000, 0b00000110, 0b00000101] (.add 6 5) [] = true := by decide
theorem test_decode_cmp : decodesTo [0b10100111, 0b00000011, 0b00000100] (.cmp 3 4) [] = true := by decide
theorem test_decode_push : decodesTo [0b01000101, 0b00000111, 1] (.push 7) [1] = true := by decide
theorem test_decode_pop : decodesTo [0b01000110, 0b00000001] (.pop 1) [] = true := by decide
theorem test_decode_call : decodesTo [0b01010000, 0b00000001] (.call 1) [] = true := by decide
theorem test_decode_ret : decodesTo [0b00010001] .ret [] = true := by decide
theorem test_decode_jmp : decodesTo [0b01010100, 0b00000011] (.jmp 3) [] = true := by decide
theorem test_decode_jeq : decodesTo [0b01010101, 0b00000010] (.jeq 2) [] = true := by decide
theorem test_decode_jne : decodesTo [0b01010110, 0b00001001] (.jne 9) [] = true := by decide

/-- R82, V55 to V58: bytes that are no opcode. -/
theorem test_decode_unrecognized :
    rejects [0x00] (.unrecognizedOpcode 0x00) = true ∧ rejects [0xFF, 1] (.unrecognizedOpcode 0xFF) = true ∧
    rejects [0xA1, 0, 1] (.unrecognizedOpcode 0xA1) = true ∧ rejects [0xA3, 0, 1] (.unrecognizedOpcode 0xA3) = true := by
  decide

/-- R75: a list that ends inside an instruction. -/
theorem test_decode_missing :
    rejects [] (.missingByte 0) = true ∧ rejects [0x47] (.missingByte 1) = true ∧
    rejects [0x82] (.missingByte 1) = true ∧ rejects [0x82, 1] (.missingByte 2) = true := by
  decide

/-- 95_test_vectors.md, "Decode table check": exactly thirteen of the 256 bytes decode. -/
theorem test_decode_table :
    ((List.range 256).filter fun n => (decodeKind (BitVec.ofNat 8 n)).isSome) =
      [0x01, 0x11, 0x45, 0x46, 0x47, 0x50, 0x54, 0x55, 0x56, 0x82, 0xA0, 0xA2, 0xA7] := by
  decide

/-- R79: what every instantiation of the tuple must satisfy. -/
theorem test_opcodes_admissible : Config.OP.Admissible := by decide

/-- R80, the description that agrees with the values of R79: bits 7:6 + 1 are the length. -/
theorem test_opcode_length_bits :
    (Kind.all.all fun k => ((Config.OP.value k).toNat / 64 + 1 == k.length)) = true := by decide

/-- spec/opcode_table.json numbers the second byte as bits 15..8. -/
theorem test_table_word : decodeTableWord 24 0x080082 = some (.ldi 0 8) ∧ decodeTableWord 8 0x01 = some .hlt ∧
    decodeTableWord 8 0xA2 = some (.mul 0 0) ∧ decodeTableWord 8 0xA3 = none := by
  decide

theorem test_fetch_word_runs :
    nextIs (step (State.reset.withFetchWord 24 0x080082)) (fun t => t.x.r0 == 8 && t.pc == 3) = true ∧
    nextIs (step (State.reset.withFetchWord 8 0x01)) (fun t => t.run == .halted && t.pc == 1) = true := by
  decide

/-! ## Memory, registers, the host's side -/

/-- R51 and log 9: a zero byte is not listed, and equal memories are equal data. -/
theorem test_memory_canonical :
    Memory.write (Memory.write (Memory.write [] 9 1) 3 2) 9 0 = [(3, 2)] ∧
    Memory.write (Memory.write [] 255 7) 0 5 = [(0, 5), (255, 7)] := by
  decide

/-- R224: P1's bytes stand from address 0, and zero follows. -/
theorem test_launch :
    nextIs (launch [0x82, 0x00, 0x08, 0x47, 0x00, 0x01])
      (fun t => t.memRead 0 == 0x82 && t.memRead 5 == 0x01 && t.memRead 6 == 0 && t.pc == 0 && t.x.r7 == 0xF4) = true := by
  decide

/-- R60: a program of 257 bytes is refused. -/
theorem test_launch_too_long (p : List Byte) (h : p.length = 257) : launch p = .refused (.programTooLong 257) := by
  unfold launch
  rw [h]
  rfl

/-- R132 (D22): the sink's lines. -/
theorem test_sink_lines : sinkLine 0 = "0" ∧ sinkLine 8 = "8" ∧ sinkLine 255 = "255" := by decide

/-- R193: the fields of the record that the status port shows. -/
theorem test_status_port :
    RunState.status (.faulted (.unrecognizedOpcode 0x04 0xFF)) = .failure 1 0 0x04 (.opcode 0xFF) ∧
    RunState.status (.faulted (.arithmetic 0 9 0)) = .failure 2 0 0 (.operands 9 0) ∧
    RunState.status (.faulted (.address .nextPc 0xFE 256)) = .failure 3 6 0xFE (.addr 256) ∧
    RunState.status .halted = .normalHalt := by
  decide

/-- R220: the reset input is a way out of a terminal state. -/
theorem test_reset_input : resetInput { cpu 9 [1] with run := .halted } = State.reset := by decide

/-- "ALU-internal, unreachable" of 95_test_vectors.md. -/
theorem test_alu_dormant :
    alu .sub 0 1 = .result 255 ∧ alu .sub 5 5 = .result 0 ∧ alu .div 7 2 = .result 3 ∧ alu .div 255 1 = .result 255 ∧
    alu .div 0 9 = .result 0 ∧ alu .div 9 0 = .divideByZero := by
  decide

/-! ## One step each: vectors of 95_test_vectors.md -/

/-- V11. -/
theorem test_hlt : nextIs (step (cpu 0x05 [0x01])) (fun t => t.run == .halted && t.pc == 0x06) = true := by decide
/-- V10. -/
theorem test_hlt_at_the_end :
    nextIs (step (cpu 0xFF [0x01])) (fun t => t.run == .halted && t.pc == 0xFF) = true := by decide
/-- V2. -/
theorem test_ldi_r7 : nextIs (step (cpu 0 [0x82, 0x07, 0x80])) (fun t => t.x.r7 == 0x80 && t.pc == 3) = true := by decide
/-- V4. -/
theorem test_ldi_commits_before_next_pc :
    nextIs (step (cpu 0xFD [0x82, 0x01, 0xFF])) (fun t => t.x.r1 == 0xFF && t.pc == 0xFD &&
      t.run == .faulted (.address .nextPc 0xFD 256)) = true := by
  decide
/-- V7. -/
theorem test_prn : nextIs (step ((cpu 0 [0x47, 0x02]).setReg .r2 0xFF)) (fun t => t.out == [0xFF] && t.pc == 2) = true := by
  decide
/-- V9. -/
theorem test_prn_missing_operand :
    nextIs (step (cpu 0xFF [0x47])) (faults (cpu 0xFF [0x47]) (.address .operandFetch 0xFF 256)) = true := by decide
/-- V16. -/
theorem test_mul_wraps :
    nextIs (step (((cpu 0 [0xA2, 0, 1]).setReg .r0 0xFF).setReg .r1 0xFF)) (fun t => t.x.r0 == 1 && t.x.r1 == 0xFF) = true := by
  decide
/-- V19b. -/
theorem test_mul_reports_opa_first :
    nextIs (step (cpu 0 [0xA2, 9, 8])) (faults (cpu 0 [0xA2, 9, 8]) (.address .regIndex 0 9)) = true := by decide
/-- V12. -/
theorem test_add_wraps :
    nextIs (step (((cpu 0 [0xA0, 0, 1]).setReg .r0 0xFF).setReg .r1 0x01))
      (fun t => t.x.r0 == 0 && t.fl == 0b000 && t.pc == 3) = true := by
  decide
/-- V13. -/
theorem test_add_to_itself :
    nextIs (step ((cpu 0 [0xA0, 2, 2]).setReg .r2 0x90)) (fun t => t.x.r2 == 0x20) = true := by decide
/-- V24. -/
theorem test_cmp_is_unsigned :
    nextIs (step (((cpu 0 [0xA7, 0, 1]).setReg .r0 0x80).setReg .r1 0x7F)) (fun t => t.fl == 0b010) = true := by decide
/-- V22. -/
theorem test_cmp_less :
    nextIs (step ((cpu 0 [0xA7, 0, 1]).setReg .r1 0xFF)) (fun t => t.fl == 0b100 && t.x.r0 == 0) = true := by decide
/-- V27. -/
theorem test_push_r7 :
    nextIs (step (cpu 0 [0x45, 7])) (fun t => t.x.r7 == 0xF3 && t.memRead 0xF3 == 0xF3) = true := by decide
/-- V29. -/
theorem test_push_to_address_0 :
    nextIs (step (((cpu 0x10 [0x45, 0]).setReg .r7 1).setReg .r0 5))
      (fun t => t.x.r7 == 0 && t.memRead 0 == 5 && t.pc == 0x12) = true := by
  decide
/-- V30. -/
theorem test_pop :
    nextIs (step (((cpu 0 [0x46, 1]).setReg .r7 0xF3).memWrite 0xF3 0x64))
      (fun t => t.x.r1 == 0x64 && t.x.r7 == 0xF4 && t.memRead 0xF3 == 0x64 && t.pc == 2) = true := by
  decide
/-- V33. -/
theorem test_pop_r7 :
    nextIs (step (((cpu 0 [0x46, 7]).setReg .r7 0xF0).memWrite 0xF0 0x20)) (fun t => t.x.r7 == 0x21) = true := by decide
/-- V37. -/
theorem test_call_r7 :
    nextIs (step (cpu 6 [0x50, 7])) (fun t => t.x.r7 == 0xF3 && t.memRead 0xF3 == 8 && t.pc == 0xF3) = true := by decide
/-- V39b. -/
theorem test_call_return_address_first :
    nextIs (step ((cpu 0xFE [0x50, 1]).setReg .r7 0))
      (faults ((cpu 0xFE [0x50, 1]).setReg .r7 0) (.address .returnAddr 0xFE 256)) = true := by
  decide
/-- V42. -/
theorem test_ret_at_the_end :
    nextIs (step (((cpu 0xFF [0x11]).setReg .r7 0xF3).memWrite 0xF3 8)) (fun t => t.pc == 8 && t.x.r7 == 0xF4) = true := by
  decide
/-- V41. -/
theorem test_ret_stack_high :
    nextIs (step (((cpu 0 [0x11]).setReg .r7 0xFF).memWrite 0xFF 3))
      (faults (((cpu 0 [0x11]).setReg .r7 0xFF).memWrite 0xFF 3) (.address .stackHigh 0 256)) = true := by
  decide
/-- V44. -/
theorem test_jmp_to_itself : nextIs (step ((cpu 0x20 [0x54, 3]).setReg .r3 0x20)) (fun t => t.pc == 0x20) = true := by decide
/-- V43. -/
theorem test_jmp : nextIs (step ((cpu 0x20 [0x54, 3]).setReg .r3 0x0C)) (fun t => t.pc == 0x0C) = true := by decide
/-- V48. -/
theorem test_jeq_before_cmp : nextIs (step ((cpu 0x14 [0x55, 2]).setReg .r2 0x30)) (fun t => t.pc == 0x16) = true := by
  decide
/-- V54. -/
theorem test_jeq_taken_at_the_end :
    nextIs (step (((cpu 0xFE [0x55, 2]).setReg .r2 0x10).setFl 0b001)) (fun t => t.pc == 0x10 && t.run == .running) = true := by
  decide
/-- V49. -/
theorem test_jne_before_cmp : nextIs (step ((cpu 0x14 [0x56, 2]).setReg .r2 0x30)) (fun t => t.pc == 0x30) = true := by
  decide
/-- V51. -/
theorem test_jne_not_taken :
    nextIs (step (((cpu 0x14 [0x56, 3]).setReg .r3 0x0C).setFl 0b001)) (fun t => t.pc == 0x16) = true := by
  decide
/-- V56. -/
theorem test_unrecognized_at_the_end :
    nextIs (step (cpu 0xFF [0xFF])) (faults (cpu 0xFF [0xFF]) (.unrecognizedOpcode 0xFF 0xFF)) = true := by decide
/-- V52. -/
theorem test_index_checked_when_not_taken :
    nextIs (step ((cpu 0x14 [0x55, 9]).setFl 0b100))
      (faults ((cpu 0x14 [0x55, 9]).setFl 0b100) (.address .regIndex 0x14 9)) = true := by
  decide
/-- R203: no step in a terminal state. -/
theorem test_terminal :
    stopsWith (step { cpu 0 [0x01] with run := .halted }) .halted = true ∧
    stopsWith (step { cpu 0 [0x01] with run := .faulted (.unrecognizedOpcode 0 0) }) (.faulted (.unrecognizedOpcode 0 0))
      = true := by
  decide
/-- The blocks on V33 (R110 to R119), whatever the operand latches held. -/
theorem test_blocks_pop_r7 :
    nextIs (Block.step 0x55 0xAA (((cpu 0 [0x46, 7]).setReg .r7 0xF0).memWrite 0xF0 0x20)) (fun t => t.x.r7 == 0x21) = true := by
  decide

/-! ## Witnesses: the hypotheses of each statement, met together, at the boundaries of each clause -/

theorem witness_StepKeepsInvariant : ∃ s t : State, s.Inv ∧ step s = .next t :=
  ⟨(cpu 0xFD [0xA7, 0, 1]).setReg .r0 1, _, by decide, rfl⟩

theorem witness_CanonicalMemoriesAreEqual : ∃ m n : Memory, Memory.wf m ∧ Memory.wf n ∧
    ∀ a : Byte, Memory.read m a.toNat = Memory.read n a.toNat :=
  ⟨[(0, 1), (255, 7)], Memory.write (Memory.write [] 255 7) 0 1, by decide, by decide, by decide⟩

theorem witness_LaunchPlacesTheProgram :
    (List.replicate 256 (0x01 : Byte)).length ≤ 256 ∧ 256 < (List.replicate 257 (0x01 : Byte)).length := by
  rw [List.length_replicate, List.length_replicate]
  decide

/-- A tuple other than the hardware's own is admissible too: the bytes 0 to 12. -/
theorem witness_DecodeAfterEncode : ∃ T : OpTable, T ≠ Config.OP ∧ T.Admissible ∧ Config.OP.Admissible :=
  ⟨⟨0, 1, 2, 3, 4, 5, 6, 7, 8, 9, 10, 11, 12⟩, by decide, by decide, by decide⟩

theorem witness_EncodeAfterDecode :
    ∃ i rest, decodeWith Config.OP [0x82, 0x08, 0xFF, 0x01] = .ok (i, rest) ∧ i = .ldi 0x08 0xFF ∧ rest = [0x01] :=
  ⟨_, _, rfl, rfl, rfl⟩

theorem witness_DecodeMatchesTheWholeByte : Config.OP.Admissible := test_opcodes_admissible

/-- A one-byte instruction at 255, a two-byte one at 254, a three-byte one at 253. -/
theorem witness_StepRunsTheDecodedInstruction :
    ((cpu 255 [0x11]).run = .running ∧ decode (cpu 255 [0x11]).bytesFromPc = .ok (.ret, [])) ∧
    ((cpu 254 [0x50, 7]).run = .running ∧ decode (cpu 254 [0x50, 7]).bytesFromPc = .ok (.call 7, [])) ∧
    ((cpu 253 [0xA2, 7, 9]).run = .running ∧ decode (cpu 253 [0xA2, 7, 9]).bytesFromPc = .ok (.mul 7 9, [])) :=
  ⟨⟨rfl, rfl⟩, ⟨rfl, rfl⟩, ⟨rfl, rfl⟩⟩

theorem witness_FetchWordIsRun :
    (cpu 253 []).run = .running ∧ (cpu 253 []).pc.toNat ≤ 253 ∧ decodeTableWord 24 0xFF0782 = some (.ldi 7 0xFF) := by
  decide

theorem witness_UnrecognizedOpcodeIsReported :
    ((cpu 255 [0xFF]).run = .running ∧
      (Kind.all.all fun k => (cpu 255 [0xFF]).memRead (cpu 255 [0xFF]).pc != Config.OP.value k) = true) ∧
    nextIs (step (cpu 0 [])) (fun t => t.run == .faulted (.unrecognizedOpcode 0 0)) = true ∧
    (FaultRec.unrecognizedOpcode 0 0).code = 1 := by
  decide

theorem witness_MissingOperandIsReported :
    ((cpu 255 [0x54]).memRead (cpu 255 [0x54]).pc = Config.OP.value .jmp ∧
      255 < (cpu 255 [0x54]).pc.toNat + (Kind.jmp.length - 1)) ∧
    ((cpu 254 [0x82, 1]).memRead (cpu 254 [0x82, 1]).pc = Config.OP.value .ldi ∧
      255 < (cpu 254 [0x82, 1]).pc.toNat + (Kind.ldi.length - 1)) ∧
    (cpu 255 [0x01]).memRead (cpu 255 [0x01]).pc = Config.OP.value .hlt ∧
    (cpu 255 [0x11]).memRead (cpu 255 [0x11]).pc = Config.OP.value .ret ∧
    (cpu 255 [0x54]).run = .running ∧ (cpu 254 [0x82, 1]).run = .running ∧ (cpu 255 [0x01]).run = .running := by
  decide

theorem witness_BadRegisterIndexIsReported :
    ((Instr.jne 8).registerOperands.find? fun c => decide (7 < c.toNat)) = some 8 ∧
    ((Instr.mul 7 255).registerOperands.find? fun c => decide (7 < c.toNat)) = some 255 ∧
    ((Instr.cmp 9 8).registerOperands.find? fun c => decide (7 < c.toNat)) = some 9 := by
  decide

theorem witness_OnlyARunningMachineSteps :
    (cpu 0 []).run = .running ∧ ({ cpu 0 [] with run := .halted } : State).run = .halted ∧
    ({ cpu 0 [] with run := .faulted (.arithmetic 0 9 0) } : State).run = .faulted (.arithmetic 0 9 0) := by
  decide

/-- A step for each line of the fault matrix, one that halts and one that goes on. -/
theorem witness_StepReportsTheFirstFault :
    nextIs (step (cpu 0 [])) (fun t => t.run == .faulted (.unrecognizedOpcode 0 0)) = true ∧
    nextIs (step (cpu 255 [0x47])) (fun t => t.run == .faulted (.address .operandFetch 255 256)) = true ∧
    nextIs (step (cpu 254 [0xA0])) (fun t => t.run == .faulted (.address .operandFetch 254 256)) = true ∧
    nextIs (step (cpu 0 [0xA0, 8, 9])) (fun t => t.run == .faulted (.address .regIndex 0 8)) = true ∧
    nextIs (step (cpu 0 [0xA0, 7, 9])) (fun t => t.run == .faulted (.address .regIndex 0 9)) = true ∧
    nextIs (step (cpu 254 [0x50, 0])) (fun t => t.run == .faulted (.address .returnAddr 254 256)) = true ∧
    nextIs (step ((cpu 0 [0x45, 0]).setReg .r7 0)) (fun t => t.run == .faulted (.address .stackLow 0 (-1))) = true ∧
    nextIs (step ((cpu 0 [0x46, 0]).setReg .r7 255)) (fun t => t.run == .faulted (.address .stackHigh 0 256)) = true ∧
    nextIs (step ((cpu 0 [0x11]).setReg .r7 255)) (fun t => t.run == .faulted (.address .stackHigh 0 256)) = true ∧
    nextIs (step (cpu 254 [0x45, 0])) (fun t => t.run == .faulted (.address .nextPc 254 256)) = true ∧
    nextIs (step (cpu 255 [0x01])) (fun t => t.run == .halted) = true ∧
    nextIs (step (cpu 0 [0x54, 0])) (fun t => t.run == .running) = true := by
  decide

theorem witness_FaultsArePrecise :
    nextIs (step (cpu 254 [0x47, 0])) (fun t => t.run == .faulted (.address .nextPc 254 256)) = true ∧
    nextIs (step (cpu 254 [0x50, 8])) (fun t => t.run == .faulted (.address .regIndex 254 8)) = true ∧
    (FaultRec.address .regIndex 254 8).isNextPc = false := by
  decide

theorem witness_ArithmeticFaultNeverOccurs : ∃ s t : State, step s = .next t :=
  ⟨cpu 0 [0xA3, 0, 1], _, rfl⟩

/-- Steps that end without a fault: a sequential one up to 255, HLT at 255, CALL R7, RET, JEQ both ways. -/
theorem witness_PcAfterEveryStep :
    nextIs (step (cpu 252 [0x82, 0, 0])) (fun t => t.failed == false && t.pc == 255) = true ∧
    nextIs (step (cpu 255 [0x01])) (fun t => t.failed == false && t.pc == 255) = true ∧
    nextIs (step (cpu 0 [0x50, 7])) (fun t => t.failed == false && t.pc == 0xF3) = true ∧
    nextIs (step (cpu 0 [0x11])) (fun t => t.failed == false && t.pc == 0) = true ∧
    nextIs (step (cpu 253 [0x55, 7])) (fun t => t.failed == false && t.pc == 255) = true ∧
    nextIs (step ((cpu 253 [0x55, 7]).setFl 0b001)) (fun t => t.failed == false && t.pc == 0xF4) = true ∧
    (cpu 252 [0x82, 0, 0]).memRead (cpu 252 [0x82, 0, 0]).pc = Config.OP.value .ldi := by
  decide

theorem witness_HltHalts :
    (cpu 255 [0x01]).run = .running ∧ (cpu 255 [0x01]).memRead (cpu 255 [0x01]).pc = Config.OP.hlt := by
  decide

theorem witness_LdiLoadsTheLiteral :
    (Reg.ofByte 7 = some .r7 ∧ (cpu 252 []).pc.toNat + 3 ≤ 255) ∧
    (Reg.ofByte 0 = some .r0 ∧ 255 < (cpu 253 []).pc.toNat + 3) ∧ 7 < (8 : Byte).toNat ∧
    ((cpu 254 [0x82]).run = .running ∧ (cpu 254 [0x82]).memRead (cpu 254 [0x82]).pc = Config.OP.ldi) ∧
    ((cpu 253 [0x82]).run = .running ∧ (cpu 253 [0x82]).memRead (cpu 253 [0x82]).pc = Config.OP.ldi) := by
  decide

theorem witness_PrnEmitsTheRegister :
    (Reg.ofByte 7 = some .r7 ∧ (cpu 253 []).pc.toNat + 2 ≤ 255) ∧
    (Reg.ofByte 0 = some .r0 ∧ 255 < (cpu 254 []).pc.toNat + 2) ∧ 7 < (8 : Byte).toNat ∧
    ((cpu 255 [0x47]).run = .running ∧ (cpu 255 [0x47]).memRead (cpu 255 [0x47]).pc = Config.OP.prn) := by
  decide

theorem witness_MulMultipliesModulo256 :
    (Reg.ofByte 7 = some .r7 ∧ Reg.ofByte 7 = some .r7 ∧ (cpu 252 []).pc.toNat + 3 ≤ 255) ∧
    (Reg.ofByte 0 = some .r0 ∧ Reg.ofByte 1 = some .r1 ∧ 255 < (cpu 253 []).pc.toNat + 3) ∧
    7 < (8 : Byte).toNat ∧ ((7 : Byte).toNat ≤ 7 ∧ 7 < (255 : Byte).toNat) ∧
    ((cpu 253 [0xA2]).run = .running ∧ (cpu 253 [0xA2]).memRead (cpu 253 [0xA2]).pc = Config.OP.mul) := by
  decide

theorem witness_AddAddsModulo256 :
    (Reg.ofByte 7 = some .r7 ∧ Reg.ofByte 0 = some .r0 ∧ (cpu 252 []).pc.toNat + 3 ≤ 255) ∧
    (Reg.ofByte 2 = some .r2 ∧ Reg.ofByte 2 = some .r2 ∧ 255 < (cpu 253 []).pc.toNat + 3) ∧
    7 < (8 : Byte).toNat ∧ ((0 : Byte).toNat ≤ 7 ∧ 7 < (8 : Byte).toNat) ∧
    ((cpu 254 [0xA0]).run = .running ∧ (cpu 254 [0xA0]).memRead (cpu 254 [0xA0]).pc = Config.OP.add) := by
  decide

theorem witness_CmpSetsTheFlags :
    (Reg.ofByte 7 = some .r7 ∧ Reg.ofByte 0 = some .r0 ∧ (cpu 252 []).pc.toNat + 3 ≤ 255) ∧
    (Reg.ofByte 4 = some .r4 ∧ Reg.ofByte 4 = some .r4 ∧ 255 < (cpu 253 []).pc.toNat + 3) ∧
    7 < (8 : Byte).toNat ∧ ((7 : Byte).toNat ≤ 7 ∧ 7 < (8 : Byte).toNat) ∧
    ((cpu 253 [0xA7]).run = .running ∧ (cpu 253 [0xA7]).memRead (cpu 253 [0xA7]).pc = Config.OP.cmp) := by
  decide

theorem witness_PushStoresBelowTheStack :
    (Reg.ofByte 7 = some .r7 ∧ (cpu 253 []).x.get .r7 ≠ 0x00 ∧ (cpu 253 []).pc.toNat + 2 ≤ 255) ∧
    (Reg.ofByte 0 = some .r0 ∧ ((cpu 254 []).setReg .r7 1).x.get .r7 ≠ 0x00 ∧ 255 < (cpu 254 []).pc.toNat + 2) ∧
    (Reg.ofByte 0 = some .r0 ∧ ((cpu 254 []).setReg .r7 0).x.get .r7 = 0x00) := by
  decide

theorem witness_PopLoadsFromTheStack :
    (Reg.ofByte 7 = some .r7 ∧ (cpu 253 []).memRead ((cpu 253 []).x.get .r7) ≠ 0xFF ∧ (cpu 253 []).pc.toNat + 2 ≤ 255) ∧
    (Reg.ofByte 0 = some .r0 ∧ ((cpu 254 []).setReg .r7 254).x.get .r7 ≠ 0xFF ∧ 255 < (cpu 254 []).pc.toNat + 2) ∧
    (Reg.ofByte 0 = some .r0 ∧ ((cpu 254 []).setReg .r7 255).x.get .r7 = 0xFF) ∧
    (Reg.ofByte 7 = some .r7 ∧ ((cpu 0 []).memWrite 0xF4 0xFF).memRead ((cpu 0 []).x.get .r7) = 0xFF) := by
  decide

theorem witness_CallPushesTheReturnAddress :
    (Reg.ofByte 7 = some .r7 ∧ (cpu 253 []).pc.toNat + 2 ≤ 255 ∧ (cpu 253 []).x.get .r7 ≠ 0x00) ∧
    (Reg.ofByte 0 = some .r0 ∧ 255 < (cpu 254 []).pc.toNat + 2) ∧
    (Reg.ofByte 0 = some .r0 ∧ (cpu 253 []).pc.toNat + 2 ≤ 255 ∧ ((cpu 253 []).setReg .r7 0).x.get .r7 = 0x00) := by
  decide

theorem witness_RetPopsThePc :
    ((cpu 0 []).setReg .r7 254).x.get .r7 ≠ 0xFF ∧ ((cpu 0 []).setReg .r7 255).x.get .r7 = 0xFF ∧
    ((cpu 255 [0x11]).run = .running ∧ (cpu 255 [0x11]).memRead (cpu 255 [0x11]).pc = Config.OP.ret) := by
  decide

theorem witness_JmpJumps :
    Reg.ofByte 7 = some .r7 ∧ 7 < (8 : Byte).toNat ∧
    ((cpu 255 [0x54]).run = .running ∧ (cpu 255 [0x54]).memRead (cpu 255 [0x54]).pc = Config.OP.jmp) := by
  decide

theorem witness_JeqJumpsIfEqual :
    Reg.ofByte 7 = some .r7 ∧ ((cpu 254 []).setFl 0b001).fl = 0b001 ∧
    ((cpu 253 []).fl ≠ 0b001 ∧ (cpu 253 []).pc.toNat + 2 ≤ 255) ∧
    ((cpu 254 []).fl ≠ 0b001 ∧ 255 < (cpu 254 []).pc.toNat + 2) ∧ 7 < (8 : Byte).toNat ∧
    ((cpu 255 [0x55]).run = .running ∧ (cpu 255 [0x55]).memRead (cpu 255 [0x55]).pc = Config.OP.jeq) := by
  decide

theorem witness_JneJumpsIfNotEqual :
    Reg.ofByte 7 = some .r7 ∧ (cpu 254 []).fl ≠ 0b001 ∧
    (((cpu 253 []).setFl 0b001).fl = 0b001 ∧ (cpu 253 []).pc.toNat + 2 ≤ 255) ∧
    (((cpu 254 []).setFl 0b001).fl = 0b001 ∧ 255 < (cpu 254 []).pc.toNat + 2) ∧ 7 < (8 : Byte).toNat ∧
    ((cpu 255 [0x56]).run = .running ∧ (cpu 255 [0x56]).memRead (cpu 255 [0x56]).pc = Config.OP.jne) := by
  decide

theorem witness_AluComputesModulo256 : (1 : Byte).toNat ≠ 0 ∧ (0 : Byte).toNat = 0 := by decide

theorem witness_FrameOfRegisterResults :
    (∃ t, exec (.ldi 7 1) (cpu 253 []) = .next t) ∧ (∃ t, exec (.mul 0 1) (cpu 0 []) = .next t) ∧
    (∃ t, exec (.add 8 1) (cpu 0 []) = .next t) :=
  ⟨⟨_, rfl⟩, ⟨_, rfl⟩, ⟨_, rfl⟩⟩

theorem witness_FrameOfRegisterReaders :
    (∃ t, exec .hlt (cpu 255 []) = .next t) ∧ (∃ t, exec (.prn 7) (cpu 254 []) = .next t) ∧
    (∃ t, exec (.cmp 0 7) (cpu 253 []) = .next t) ∧ (∃ t, exec (.jmp 7) (cpu 0 []) = .next t) ∧
    (∃ t, exec (.jeq 8) (cpu 0 []) = .next t) ∧ (∃ t, exec (.jne 0) (cpu 254 []) = .next t) :=
  ⟨⟨_, rfl⟩, ⟨_, rfl⟩, ⟨_, rfl⟩, ⟨_, rfl⟩, ⟨_, rfl⟩, ⟨_, rfl⟩⟩

theorem witness_FrameOfPops :
    (∃ t, exec (.pop 7) (cpu 0 []) = .next t) ∧ (∃ t, exec (.pop 0) (cpu 254 []) = .next t) ∧
    (∃ t, exec .ret ((cpu 0 []).setReg .r7 255) = .next t) ∧ Reg.ofByte 0 ≠ some .r1 :=
  ⟨⟨_, rfl⟩, ⟨_, rfl⟩, ⟨_, rfl⟩, by decide⟩

theorem witness_FrameOfPushes :
    (∃ t s1, exec (.push 7) (cpu 254 []) = .next t ∧ stackDecrement (cpu 254 []) = .ok s1) ∧
    (∃ t c, exec (.call 0) ((cpu 0 []).setReg .r7 0) = .next t ∧
      stackDecrement ((cpu 0 []).setReg .r7 0) = .error c) ∧
    (∃ t, exec (.push 8) (cpu 0 []) = .next t) ∧
    (∃ t, exec (.call 0) (cpu 254 []) = .next t ∧ 255 < (cpu 254 []).pc.toNat + 2) :=
  ⟨⟨_, _, rfl, rfl⟩, ⟨_, _, rfl, rfl⟩, ⟨_, rfl⟩, ⟨_, rfl, by decide⟩⟩

theorem witness_FlagsWrittenByCmpReadByBranches :
    (∃ t, exec (.jeq 0) (cpu 0 []) = .next t) ∧ (Instr.jeq 0).kind ≠ .cmp ∧
    (∃ t, exec (.cmp 0 1) (cpu 0 []) = .next t) ∧ (Instr.cmp 0 1).kind ≠ .jeq ∧ (Instr.cmp 0 1).kind ≠ .jne :=
  ⟨⟨_, rfl⟩, by decide, ⟨_, rfl⟩, by decide, by decide⟩

theorem witness_FlagsOneHotFromTheFirstCmp :
    (∃ t, exec (.cmp 7 0) (cpu 253 []) = .next t) ∧ ((7 : Byte).toNat ≤ 7 ∧ (0 : Byte).toNat ≤ 7) ∧
    (∃ t, step ((cpu 0 [0x55, 0]).setFl 0b100) = .next t) ∧ flagOneHot ((cpu 0 [0x55, 0]).setFl 0b100).fl = true :=
  ⟨⟨_, rfl⟩, by decide, ⟨_, rfl⟩, by decide⟩

theorem witness_OutputWrittenByPrnOnly :
    Reg.ofByte 7 = some .r7 ∧ nextIs (step (cpu 254 [0x47, 7])) (fun t => t.out == [0xF4]) = true ∧
    nextIs (step (cpu 0 [0x01])) (fun t => t.out == []) = true := by
  decide

theorem witness_MemoryWrittenByPushAndCallOnly :
    nextIs (step ((cpu 0x10 [0x45, 0]).setReg .r7 1 |>.setReg .r0 5))
      (fun t => t.memRead 0 != (cpu 0x10 [0x45, 0]).memRead 0) = true ∧
    nextIs (step ((cpu 0 [0x50, 0]).setReg .r7 255)) (fun t => t.memRead 254 != (cpu 0 [0x50, 0]).memRead 254) = true := by
  decide

/-- The state before a push of `v` by PUSH R0, or of `pc + 2` by CALL, to cell 254. -/
def beforePush (pc : Nat) (v : Byte) : State := ((cpu pc []).setReg .r7 255).setReg .r0 v

/-- A later state, with instruction bytes at its pc, whose cell 254 holds `v`. -/
def afterPush (pc : Nat) (bytes : List Nat) (v : Byte) : State := (cpu pc bytes).memWrite 254 v

/-- The instruction stores the byte that the later state's cell 254 holds. -/
def stores (i : Instr) (s u : State) : Bool := nextIs (exec i s) fun t => decide (u.memRead 254 = t.memRead 254)

/-- What is pushed: x[0], register 7 decremented, a return address; pc 253 is the last a CALL returns from. -/
theorem witness_StoredByteIsFetched :
    (Reg.ofByte 0 = some .r0 ∧ (beforePush 0 0xFF).x.get .r7 ≠ 0x00 ∧ (254 : Byte) = (beforePush 0 0xFF).x.get .r7 - 1 ∧
      stores (.push 0) (beforePush 0 0xFF) (afterPush 254 [] 0xFF) = true ∧
      0xFF = ((beforePush 0 0xFF).x.set .r7 254).get .r0) ∧
    (Reg.ofByte 7 = some .r7 ∧ stores (.push 7) (beforePush 0 0) (afterPush 254 [] 254) = true ∧
      254 = ((beforePush 0 0).x.set .r7 254).get .r7) ∧
    (stores (.call 0) (beforePush 253 0) (afterPush 254 [] 255) = true ∧ (beforePush 253 0).pc.toNat + 2 ≤ 255 ∧
      255 = (beforePush 253 0).pc + 2) := by
  decide

/-- How the stored byte is fetched, a state for each clause: no opcode; LDI's opcode at 254, one operand byte short;
PRN's opcode at 254, with its operand at 255; the second operand of an LDI at 252 and the operand of a JMP at 253. -/
theorem witness_StoredByteIsFetched_fetches :
    ((afterPush 254 [] 0xFF).run = .running ∧ (afterPush 254 [] 0xFF).pc = 254 ∧
      (Kind.all.all fun k => 0xFF != Config.OP.value k) = true) ∧
    (0x82 = Config.OP.value .ldi ∧ 256 < (254 : Byte).toNat + Kind.ldi.length ∧
      stores (.push 0) (beforePush 0 0x82) (afterPush 254 [] 0x82) = true) ∧
    (0x47 = Config.OP.value .prn ∧ (254 : Byte).toNat + Kind.prn.length ≤ 256 ∧
      stores (.push 0) (beforePush 0 0x47) (afterPush 254 [] 0x47) = true) ∧
    (decode (afterPush 252 [0x82, 0x01] 0xFF).bytesFromPc = .ok (.ldi 0x01 0xFF, [0x00]) ∧
      (afterPush 252 [0x82, 0x01] 0xFF).pc.toNat + 2 = (254 : Byte).toNat ∧ 2 < (Instr.ldi 0x01 0xFF).kind.length) ∧
    (decode (afterPush 253 [0x54] 7).bytesFromPc = .ok (.jmp 7, [0x00]) ∧
      (afterPush 253 [0x54] 7).pc.toNat + 1 = (254 : Byte).toNat ∧ 1 < (Instr.jmp 7).kind.length ∧
      stores (.call 0) (beforePush 5 0) (afterPush 253 [0x54] 7) = true) :=
  ⟨by decide, by decide, by decide, ⟨rfl, by decide, by decide⟩, ⟨rfl, by decide, by decide, by decide⟩⟩

theorem witness_PushThenPopRestores :
    (7 : Byte).toNat ≤ 7 ∧ ((cpu 251 []).setReg .r7 1).x.get .r7 ≠ 0x00 ∧ ((cpu 251 []).setReg .r7 1).pc.toNat + 4 ≤ 255 := by
  decide

/-- A later state, after other instructions, with the stack pointer back and the return address in its cell. -/
theorem witness_CallThenRetResumes :
    (7 : Byte).toNat ≤ 7 ∧ (cpu 253 []).x.get .r7 ≠ 0x00 ∧ (cpu 253 []).pc.toNat + 2 ≤ 255 ∧
    nextIs (exec (.call 7) (cpu 253 [])) (fun s1 =>
      (((cpu 9 []).setReg .r7 0xF3).memWrite 0xF3 0xFF).x.get .r7 == s1.x.get .r7 &&
      (((cpu 9 []).setReg .r7 0xF3).memWrite 0xF3 0xFF).memRead 0xF3 == s1.memRead (s1.x.get .r7)) = true := by
  decide

theorem witness_CompareThenBranch :
    Reg.ofByte 0 = some .r0 ∧ Reg.ofByte 7 = some .r7 ∧ Reg.ofByte 3 = some .r3 ∧ (cpu 250 []).pc.toNat + 5 ≤ 255 ∧
    (cpu 250 []).x.get .r0 = (cpu 250 []).x.get .r3 ∧ (cpu 250 []).x.get .r0 ≠ (cpu 250 []).x.get .r7 := by
  decide

theorem witness_LoadThenPrintEmitsTheValue : (7 : Byte).toNat ≤ 7 ∧ (cpu 250 []).pc.toNat + 5 ≤ 255 := by decide

end Sys2Proof.Tests
end

section
/-!
PROOF. The registers, the flag register and the output (10_state.md): their reset values, which instructions write them,
and which read them. That an element is not read is shown with a relation between states that differ in it alone: every
operation, every instruction and the step keep such a relation.
-/

namespace Sys2Proof.Proofs

open Sys2Proof.Machine

/-! ## Which instructions write the flag register and the output -/

@[simp] theorem jumpIf_fl (taken : Bool) (a : Reg) (s : State) : (jumpIf taken a s).fl = s.fl := by
  cases taken <;> simp [jumpIf]

@[simp] theorem jumpIf_out (taken : Bool) (a : Reg) (s : State) : (jumpIf taken a s).out = s.out := by
  cases taken <;> simp [jumpIf]

@[simp] theorem pushed_fl (s : State) : (pushed s).fl = s.fl := rfl

@[simp] theorem pushed_out (s : State) : (pushed s).out = s.out := rfl

/-- An instruction writes the flag register only if it is CMP (R31), and the output only if it is PRN (R35). -/
theorem exec_fl_and_out {i : Instr} {s t : State} (h : exec i s = .next t) :
    (i.kind ≠ .cmp → t.fl = s.fl) ∧ (i.kind ≠ .prn → t.out = s.out) := by
  cases i with
  | hlt => simp [exec_hlt_cases h]
  | ldi opa imm => obtain ⟨-, rfl⟩ | ⟨a, -, rfl⟩ := exec_ldi_cases h <;> simp
  | prn opa => obtain ⟨-, rfl⟩ | ⟨a, -, rfl⟩ := exec_prn_cases h <;> simp [Instr.kind]
  | mul opa opb => obtain ⟨b, -, -, rfl⟩ | ⟨a, b, -, -, rfl⟩ := exec_mul_cases h <;> simp
  | add opa opb => obtain ⟨b, -, -, rfl⟩ | ⟨a, b, -, -, rfl⟩ := exec_add_cases h <;> simp
  | cmp opa opb => obtain ⟨b, -, -, rfl⟩ | ⟨a, b, -, -, rfl⟩ := exec_cmp_cases h <;> simp [Instr.kind]
  | push opa => obtain ⟨-, rfl⟩ | ⟨-, rfl⟩ | ⟨a, -, -, rfl⟩ := exec_push_cases h <;> simp
  | pop opa => obtain ⟨-, rfl⟩ | ⟨a, -, ⟨-, rfl⟩ | ⟨-, rfl⟩⟩ := exec_pop_cases h <;> simp
  | call opa => obtain ⟨-, rfl⟩ | ⟨-, rfl⟩ | ⟨-, -, rfl⟩ | ⟨a, -, -, -, rfl⟩ := exec_call_cases h <;> simp
  | ret => obtain ⟨-, rfl⟩ | ⟨-, rfl⟩ := exec_ret_cases h <;> simp
  | jmp opa => obtain ⟨-, rfl⟩ | ⟨a, -, rfl⟩ := exec_jmp_cases h <;> simp
  | jeq opa => obtain ⟨-, rfl⟩ | ⟨a, -, rfl⟩ := exec_jeq_cases h <;> simp
  | jne opa => obtain ⟨-, rfl⟩ | ⟨a, -, rfl⟩ := exec_jne_cases h <;> simp

/-- PRN with a register operand emits the register's value, `NEXT_PC` or not (R132). -/
theorem exec_prn_of_some {opa : Byte} {a : Reg} (h : Reg.ofByte opa = some a) (s : State) :
    exec (.prn opa) s = .next (advance 2 (s.emit (s.reg a))) :=
  withReg_of_some h s _

/-- What an instruction appends to the output: nothing, or one value if it is PRN. -/
theorem exec_out_cases {i : Instr} {s t : State} (h : exec i s = .next t) :
    t.out = s.out ∨ (i.kind = .prn ∧ ∃ v, t.out = s.out ++ [v]) := by
  by_cases hk : i.kind = .prn
  · cases i <;> cases hk
    obtain ⟨-, rfl⟩ | ⟨a, -, rfl⟩ := exec_prn_cases h
    · exact .inl rfl
    · exact .inr ⟨rfl, s.reg a, by simp⟩
  · exact .inl ((exec_fl_and_out h).2 hk)

/-- What a step appends to the output: nothing, or one value if the opcode byte is PRN's. -/
theorem step_out_cases {s t : State} (h : step s = .next t) :
    t.out = s.out ∨ (s.memRead s.pc = Config.OP.prn ∧ ∃ v, t.out = s.out ++ [v]) := by
  obtain ⟨-, ⟨r, -, rfl⟩ | ⟨i, hi, he⟩⟩ := step_eq_next h
  · exact .inl rfl
  · obtain ho | ⟨hk, hv⟩ := exec_out_cases he
    · exact .inl ho
    · obtain ⟨j, hj, hd⟩ | ⟨-, hf⟩ | ⟨k, n, -, -, -, -, hf⟩ := fetchInstr_cases s
      · cases hi.symm.trans hj
        exact .inr ⟨(decodeKind_eq_some_iff _ _).mp (hk ▸ hd), hv⟩
      · cases hi.symm.trans hf
      · cases hi.symm.trans hf

/-! ## Relations that the operations keep -/

/-- The second result answers every next state of the first with a related one. -/
def Matches (R : State → State → Prop) (res res' : Result) : Prop :=
  ∀ t, res = .next t → ∃ t', res' = .next t' ∧ R t t'

theorem Matches.next {R : State → State → Prop} {t t' : State} (h : R t t') : Matches R (.next t) (.next t') := by
  rintro _ ⟨⟩
  exact ⟨t', rfl, h⟩

/-- Related states differ at most in the flag register and the output, and each update of the state keeps the relation. -/
structure Kept (R : State → State → Prop) : Prop where
  x : ∀ {s s'}, R s s' → s'.x = s.x
  pc : ∀ {s s'}, R s s' → s'.pc = s.pc
  run : ∀ {s s'}, R s s' → s'.run = s.run
  mem : ∀ {s s'}, R s s' → s'.mem = s.mem
  setReg : ∀ {s s'} (r : Reg) (v : Byte), R s s' → R (s.setReg r v) (s'.setReg r v)
  setPc : ∀ {s s'} (v : Byte), R s s' → R (s.setPc v) (s'.setPc v)
  setFl : ∀ {s s'} (f : FlagBits), R s s' → R (s.setFl f) (s'.setFl f)
  halt : ∀ {s s'}, R s s' → R s.halt s'.halt
  emit : ∀ {s s'} (v : Byte), R s s' → R (s.emit v) (s'.emit v)
  memWrite : ∀ {s s'} (a v : Byte), R s s' → R (s.memWrite a v) (s'.memWrite a v)
  raise : ∀ {s s'} (c : FaultRec), R s s' → R (raise c s) (raise c s')

namespace Kept

variable {R : State → State → Prop} (hR : Kept R) {s s' : State} (h : R s s')
include hR h

/-! What related states agree in. -/

theorem reg (r : Reg) : s'.reg r = s.reg r := by simp [State.reg, hR.x h]

theorem sp : s'.sp = s.sp := hR.reg h _

theorem memRead (a : Byte) : s'.memRead a = s.memRead a := by simp [State.memRead, hR.mem h]

theorem stackTop : stackTop s' = stackTop s := by simp [Machine.stackTop, hR.sp h, hR.memRead h]

theorem popBase (a : Reg) : popBase a s' = popBase a s := by simp [Machine.popBase, hR.sp h, hR.stackTop h]

theorem addressFault (sub : AddrSub) (addr : Int) : addressFault s' sub addr = addressFault s sub addr := by
  simp [Machine.addressFault, hR.pc h]

theorem regidx (b : Byte) : regidx s' b = regidx s b := by simp [Machine.regidx, hR.addressFault h]

theorem returnAddress : returnAddress s' = returnAddress s := by
  simp [Machine.returnAddress, hR.pc h, hR.addressFault h]

theorem stackIncrement (base : Byte) : stackIncrement s' base = stackIncrement s base := by
  simp [Machine.stackIncrement, hR.addressFault h]

theorem stopped : stopped s' = stopped s := by simp [Machine.stopped, hR.run h]

theorem fetchOperand (k : Nat) : fetchOperand s' k = fetchOperand s k := by
  simp [Machine.fetchOperand, hR.pc h, hR.memRead h, hR.addressFault h]

theorem fetchInstr : fetchInstr s' = fetchInstr s := by
  unfold Machine.fetchInstr
  rw [hR.pc h, hR.memRead h]
  cases decodeKind (s.memRead s.pc) with
  | none => rfl
  | some k => cases k <;> simp [Kind.shape, fetchOperands, hR.fetchOperand h]

/-! The operations keep the relation. -/

theorem advance (len : Nat) : R (advance len s) (advance len s') := by
  unfold Machine.advance
  rw [hR.pc h, hR.addressFault h]
  split
  · exact hR.setPc _ h
  · exact hR.raise _ h

theorem stackStore (v : Byte) : R (stackStore s v) (stackStore s' v) := by
  unfold Machine.stackStore
  rw [hR.sp h]
  exact hR.memWrite _ _ h

theorem jumpIf (taken : Bool) (a : Reg) : R (jumpIf taken a s) (jumpIf taken a s') := by
  cases taken
  · exact hR.advance h 2
  · simpa [Machine.jumpIf, hR.reg h] using hR.setPc (s.reg a) h

theorem orRaise {α : Type} {check check' : Except FaultRec α} {go go' : α → Result} (hc : check' = check)
    (hgo : ∀ v, Matches R (go v) (go' v)) : Matches R (orRaise s check go) (orRaise s' check' go') := by
  subst hc
  cases check' with
  | ok v => exact hgo v
  | error r => exact .next (hR.raise r h)

theorem withReg {opa : Byte} {go go' : Reg → Result} (hgo : ∀ a, Matches R (go a) (go' a)) :
    Matches R (withReg opa s go) (withReg opa s' go') :=
  hR.orRaise h (hR.regidx h opa) hgo

theorem withRegs {opa opb : Byte} {go go' : Reg → Reg → Result} (hgo : ∀ a b, Matches R (go a b) (go' a b)) :
    Matches R (withRegs opa opb s go) (withRegs opa opb s' go') :=
  hR.withReg h fun a => hR.withReg h (hgo a)

theorem stackDecrement {go go' : State → Result} (hgo : ∀ s1 s1', R s1 s1' → Matches R (go s1) (go' s1')) :
    Matches R (Machine.orRaise s (stackDecrement s) go) (Machine.orRaise s' (stackDecrement s') go') := by
  unfold Machine.stackDecrement
  rw [hR.sp h, hR.addressFault h]
  split
  · exact .next (hR.raise _ h)
  · exact hgo _ _ (hR.setReg _ _ h)

theorem aluInstruction (op : AluOp) (a b : Reg) : Matches R (aluInstruction op a b s) (aluInstruction op a b s') := by
  unfold Machine.aluInstruction
  rw [hR.reg h, hR.reg h, hR.pc h]
  cases alu op (s.reg a) (s.reg b) with
  | result v => exact .next (hR.advance (hR.setReg a v h) 3)
  | flags f => exact .next (hR.advance (hR.setFl f h) 3)
  | divideByZero => exact .next (hR.raise _ h)

/-- An instruction keeps the relation, if the conditional jumps find the flag register alike. -/
theorem exec (i : Instr) (hfl : i.kind = .jeq ∨ i.kind = .jne → s'.fl = s.fl) : Matches R (exec i s) (exec i s') := by
  cases i with
  | hlt =>
    refine .next ?_
    rw [hR.pc h]
    exact hR.halt (hR.setPc _ h)
  | ldi opa imm => exact hR.withReg h fun a => .next (hR.advance (hR.setReg a _ h) 3)
  | prn opa =>
    refine hR.withReg h fun a => .next ?_
    rw [hR.reg h]
    exact hR.advance (hR.emit _ h) 2
  | mul opa opb => exact hR.withRegs h fun a b => hR.aluInstruction h .mul a b
  | add opa opb => exact hR.withRegs h fun a b => hR.aluInstruction h .add a b
  | cmp opa opb => exact hR.withRegs h fun a b => hR.aluInstruction h .cmp a b
  | push opa =>
    refine hR.withReg h fun a => hR.stackDecrement h fun s1 s1' h1 => .next ?_
    rw [hR.reg h1]
    exact hR.advance (hR.stackStore h1 _) 2
  | pop opa =>
    refine hR.withReg h fun a => ?_
    rw [hR.popBase h, hR.stackTop h]
    exact hR.orRaise h (hR.stackIncrement h _) fun sp => .next (hR.advance (hR.setReg _ sp (hR.setReg a _ h)) 2)
  | call opa =>
    refine hR.withReg h fun a => hR.orRaise h (hR.returnAddress h) fun ret =>
      hR.stackDecrement h fun s1 s1' h1 => .next ?_
    rw [hR.reg h1]
    exact hR.setPc _ (hR.stackStore h1 ret)
  | ret =>
    change Matches R (execRet s) (execRet s')
    unfold execRet
    rw [hR.sp h, hR.stackTop h]
    exact hR.orRaise h (hR.stackIncrement h _) fun sp => .next (hR.setPc _ (hR.setReg _ sp h))
  | jmp opa => exact hR.withReg h fun a => .next (hR.jumpIf h true a)
  | jeq opa =>
    refine hR.withReg h fun a => .next ?_
    rw [hfl (.inl rfl)]
    exact hR.jumpIf h _ a
  | jne opa =>
    refine hR.withReg h fun a => .next ?_
    rw [hfl (.inr rfl)]
    exact hR.jumpIf h _ a

/-- A step keeps the relation, if the states agree in the flag register. -/
theorem step (hfl : s'.fl = s.fl) : Matches R (step s) (step s') := by
  unfold Machine.step
  rw [hR.stopped h]
  cases Machine.stopped s with
  | some f => rintro t ⟨⟩
  | none => exact hR.orRaise h (hR.fetchInstr h) fun i => hR.exec h i fun _ => hfl

end Kept

/-! ## The two elements that a relation can leave out -/

/-- The states differ in the flag register alone. -/
def SameButFlags (s s' : State) : Prop := ∃ g, s' = s.setFl g

/-- The flag register is no input of any update of the state. -/
theorem kept_sameButFlags : Kept SameButFlags where
  x := by rintro s _ ⟨g, rfl⟩; rfl
  pc := by rintro s _ ⟨g, rfl⟩; rfl
  run := by rintro s _ ⟨g, rfl⟩; rfl
  mem := by rintro s _ ⟨g, rfl⟩; rfl
  setReg := by rintro s _ r v ⟨g, rfl⟩; exact ⟨g, rfl⟩
  setPc := by rintro s _ v ⟨g, rfl⟩; exact ⟨g, rfl⟩
  setFl := by rintro s _ f ⟨g, rfl⟩; exact ⟨f, rfl⟩
  halt := by rintro s _ ⟨g, rfl⟩; exact ⟨g, rfl⟩
  emit := by rintro s _ v ⟨g, rfl⟩; exact ⟨g, rfl⟩
  memWrite := by rintro s _ a v ⟨g, rfl⟩; exact ⟨g, rfl⟩
  raise := by rintro s _ c ⟨g, rfl⟩; exact ⟨g, rfl⟩

/-- The states differ in the output alone: the same values follow `p` in the first and `o` in the second. -/
def SameButOutput (p o : List Byte) (s s' : State) : Prop := ∃ w, s.out = p ++ w ∧ s' = { s with out := o ++ w }

/-- The output is no input of any update of the state, and an emission appends to it whatever it holds. -/
theorem kept_sameButOutput (p o : List Byte) : Kept (SameButOutput p o) where
  x := by rintro s _ ⟨w, hw, rfl⟩; rfl
  pc := by rintro s _ ⟨w, hw, rfl⟩; rfl
  run := by rintro s _ ⟨w, hw, rfl⟩; rfl
  mem := by rintro s _ ⟨w, hw, rfl⟩; rfl
  setReg := by rintro s _ r v ⟨w, hw, rfl⟩; exact ⟨w, hw, rfl⟩
  setPc := by rintro s _ v ⟨w, hw, rfl⟩; exact ⟨w, hw, rfl⟩
  setFl := by rintro s _ f ⟨w, hw, rfl⟩; exact ⟨w, hw, rfl⟩
  halt := by rintro s _ ⟨w, hw, rfl⟩; exact ⟨w, hw, rfl⟩
  emit := by rintro s _ v ⟨w, hw, rfl⟩; exact ⟨w ++ [v], by simp [hw], by simp [State.emit]⟩
  memWrite := by rintro s _ a v ⟨w, hw, rfl⟩; exact ⟨w, hw, rfl⟩
  raise := by rintro s _ c ⟨w, hw, rfl⟩; exact ⟨w, hw, rfl⟩

/-- An instruction other than the conditional jumps does the same whatever the flag register holds (R31). -/
theorem exec_with_fl {i : Instr} {s t : State} (f : FlagBits) (hjeq : i.kind ≠ .jeq) (hjne : i.kind ≠ .jne)
    (h : exec i s = .next t) : ∃ g, exec i { s with fl := f } = .next { t with fl := g } := by
  have hrel : SameButFlags s { s with fl := f } := ⟨f, rfl⟩
  have hfl : i.kind = .jeq ∨ i.kind = .jne → ({ s with fl := f } : State).fl = s.fl :=
    fun hk => absurd hk (not_or.mpr ⟨hjeq, hjne⟩)
  obtain ⟨_, he, g, rfl⟩ := kept_sameButFlags.exec hrel i hfl t h
  exact ⟨g, he⟩

/-- A step appends the same values to any other list of earlier outputs (R35). -/
theorem step_with_out {s t : State} {w : List Byte} (h : step s = .next t) (hw : t.out = s.out ++ w) (o : List Byte) :
    step { s with out := o } = .next { t with out := o ++ w } := by
  have hrel : SameButOutput s.out o s { s with out := o } := ⟨[], by simp, by simp⟩
  obtain ⟨_, he, w', hw', rfl⟩ := (kept_sameButOutput s.out o).step hrel rfl t h
  rwa [List.append_cancel_left (hw.symm.trans hw')]

/-! ## The statements -/

/-- Settles O1, register by register. -/
theorem registersAfterReset : Obligations.RegistersAfterReset := by
  intro r
  cases r <;> rfl

/-- Settles O41: only CMP writes the flag register, and the instructions other than JEQ and JNE keep the relation of
states that differ in it alone. -/
theorem flagsWrittenByCmpReadByBranches : Obligations.FlagsWrittenByCmpReadByBranches :=
  ⟨fun _ _ _ h hk => (exec_fl_and_out h).1 hk, fun _ _ _ f hjeq hjne h => exec_with_fl f hjeq hjne h⟩

/-- Settles O43: what a step appends is nothing or PRN's one value, and the step keeps the relation of states that differ
in their earlier outputs alone. -/
theorem outputWrittenByPrnOnly : Obligations.OutputWrittenByPrnOnly := by
  refine ⟨rfl, fun s opa a ha => ⟨_, exec_prn_of_some ha s, by simp [State.reg]⟩, fun s t h => ?_⟩
  obtain ho | ⟨hprn, v, ho⟩ := step_out_cases h
  · have hw : t.out = s.out ++ [] := by simpa using ho
    exact ⟨[], hw, .inl rfl, step_with_out h hw⟩
  · exact ⟨[v], ho, .inr ⟨hprn, rfl⟩, step_with_out h ho⟩

end Sys2Proof.Proofs
end

section
/-!
PROOF. The memory (20_memory.md): what a read of the state gives after a write, and what a write leaves unchanged (R51).
-/

namespace Sys2Proof.Proofs

open Sys2Proof.Machine

/-- The law `Memory.read_write` at byte addresses, where different bytes are different cells. -/
theorem memRead_memWrite (s : State) (a b v : Byte) :
    (s.memWrite a v).memRead b = if b = a then v else s.memRead b := by
  simp only [State.memRead, memWrite_mem, Memory.read_write, BitVec.toNat_inj]

/-- Settles O6: the cells by the law of a read after a write, the other elements by the laws of `memWrite`. -/
theorem memoryReadAfterWrite : Obligations.MemoryReadAfterWrite := fun s a b v =>
  ⟨memRead_memWrite s a b v, memWrite_x s v a, memWrite_pc s v a, memWrite_fl s v a, memWrite_run s v a,
    memWrite_out s v a⟩

end Sys2Proof.Proofs
end

section
/-!
PROOF. The decode function of R81 over an arbitrary tuple `OP`: a byte that decodes has the value of its kind, and in an
admissible tuple no other kind has that value.
-/

namespace Sys2Proof.Proofs

theorem kind_mem_all (k : Kind) : k ∈ Kind.all := by
  cases k <;> simp [Kind.all]

/-- Different kinds of an admissible tuple have different opcode bytes (R79). -/
theorem value_injective {T : OpTable} (hT : T.Admissible) : Function.Injective T.value := fun k k' h =>
  List.inj_on_of_nodup_map hT.1 (kind_mem_all k) (kind_mem_all k') h

/-- A byte decodes to a kind only if it is that kind's value, whatever the tuple. -/
theorem eq_value_of_decodeKindWith {T : OpTable} {b : Byte} {k : Kind} (h : decodeKindWith T b = some k) :
    b = T.value k := by
  have hv := List.find?_some h
  exact (beq_iff_eq.mp hv).symm

/-- A byte is `Unrecognized` exactly when it is none of the thirteen values, whatever the tuple (R81). -/
theorem decodeKindWith_eq_none_iff (T : OpTable) (b : Byte) : decodeKindWith T b = none ↔ ∀ k, b ≠ T.value k := by
  rw [decodeKindWith, List.find?_eq_none]
  constructor
  · rintro h k rfl
    exact h k (kind_mem_all k) (beq_self_eq_true _)
  · exact fun h k _ hk => h k (beq_iff_eq.mp hk).symm

/-- The values of an admissible tuple decode to their own kinds (R81). -/
theorem decodeKindWith_value {T : OpTable} (hT : T.Admissible) (k : Kind) : decodeKindWith T (T.value k) = some k := by
  cases h : decodeKindWith T (T.value k) with
  | none => exact absurd rfl ((decodeKindWith_eq_none_iff T _).mp h k)
  | some k' => rw [value_injective hT (eq_value_of_decodeKindWith h)]

/-- Settles O10: the byte found is the kind's value, and the values of an admissible tuple decode to their own kinds. -/
theorem decodeMatchesTheWholeByte : Obligations.DecodeMatchesTheWholeByte := by
  refine fun T hT b => ⟨fun k => ⟨eq_value_of_decodeKindWith, ?_⟩, decodeKindWith_eq_none_iff T b⟩
  rintro rfl
  exact decodeKindWith_value hT k

end Sys2Proof.Proofs
end

section
/-!
PROOF. LDI (41_data_and_system.md). The sequential advance and the fetch of two operand bytes are stated for every
instruction that has them.
-/

namespace Sys2Proof.Proofs

open Sys2Proof.Machine

/-! ## The sequential advance, by whether the next pc is a byte (R106) -/

theorem advance_of_le {len : Nat} {s : State} (h : s.pc.toNat + len ≤ 255) :
    advance len s = s.setPc (s.pc + BitVec.ofNat 8 len) := by
  obtain ⟨-, ha⟩ | ⟨hlt, -⟩ := advance_cases len s
  · rw [ha, BitVec.ofNat_add, BitVec.ofNat_toNat, BitVec.setWidth_eq]
  · omega

theorem advance_of_lt {len : Nat} {s : State} (h : 255 < s.pc.toNat + len) :
    advance len s = raise (.address .nextPc s.pc (s.pc.toNat + len)) s := by
  obtain ⟨hle, -⟩ | ⟨-, ha⟩ := advance_cases len s
  · omega
  · exact ha

/-! ## The fetch of two operand bytes (R103) -/

theorem fetchOperand_of_le {s : State} {k : Nat} (h : s.pc.toNat + k ≤ 255) :
    fetchOperand s k = .ok (s.memRead (s.pc + BitVec.ofNat 8 k)) := by
  obtain ⟨-, hf⟩ | ⟨hlt, -⟩ := fetchOperand_cases s k
  · rw [hf, BitVec.ofNat_add, BitVec.ofNat_toNat, BitVec.setWidth_eq]
  · omega

/-- The first address above 255 is 256, whichever operand byte it belongs to. -/
theorem fetchOperand_of_eq_256 {s : State} {k : Nat} (h : s.pc.toNat + k = 256) :
    fetchOperand s k = .error (.address .operandFetch s.pc 256) := by
  obtain ⟨hle, -⟩ | ⟨-, hf⟩ := fetchOperand_cases s k
  · omega
  · have h256 : (s.pc.toNat : Int) + k = 256 := by exact_mod_cast h
    rw [hf, h256]

/-- At 255 the first operand byte is missing and at 254 the second: the fault reports address 256 in both cases. -/
theorem fetchOperands_opAB (s : State) (make : Byte → Byte → Instr) :
    fetchOperands s (.opAB make) =
      if 254 ≤ s.pc.toNat then .error (.address .operandFetch s.pc 256) else .ok (make s.opa s.opb) := by
  have hpc := s.pc.isLt
  by_cases h255 : s.pc.toNat = 255
  · have h1 : fetchOperand s 1 = .error (.address .operandFetch s.pc 256) := fetchOperand_of_eq_256 (by omega)
    simp [fetchOperands, h1, h255]
  · have h1 : fetchOperand s 1 = .ok s.opa := fetchOperand_of_le (by omega)
    by_cases h254 : s.pc.toNat = 254
    · have h2 : fetchOperand s 2 = .error (.address .operandFetch s.pc 256) := fetchOperand_of_eq_256 (by omega)
      simp [fetchOperands, h1, h2, h254]
    · have h2 : fetchOperand s 2 = .ok s.opb := fetchOperand_of_le (by omega)
      have hle : ¬ 254 ≤ s.pc.toNat := by omega
      simp [fetchOperands, h1, h2, hle]

/-- The fetch phase after an opcode byte of the tuple goes on with the kind's format (R102, R103). -/
theorem fetchInstr_of_value {s : State} {k : Kind} (h : s.memRead s.pc = Config.OP.value k) :
    fetchInstr s = fetchOperands s k.shape := by
  simp [fetchInstr, (decodeKind_eq_some_iff _ k).mpr h]

/-- A step at the opcode byte of a kind with two operand bytes. -/
theorem step_opAB {s : State} {k : Kind} {make : Byte → Byte → Instr} (hrun : s.run = .running)
    (hop : s.memRead s.pc = Config.OP.value k) (hk : k.shape = .opAB make) :
    step s = if 254 ≤ s.pc.toNat then .next (raise (.address .operandFetch s.pc 256) s)
      else exec (make s.opa s.opb) s := by
  rw [step_of_running hrun, fetchInstr_of_value hop, hk, fetchOperands_opAB]
  split
  · exact orRaise_error s _ _
  · exact orRaise_ok s _ _

/-! ## LDI (R131) -/

/-- LDI with a register operand writes the literal, `NEXT_PC` or not. -/
theorem exec_ldi_of_some {opa : Byte} {a : Reg} (h : Reg.ofByte opa = some a) (imm : Byte) (s : State) :
    exec (.ldi opa imm) s = .next (advance 3 (s.setReg a imm)) :=
  withReg_of_some h s _

theorem exec_ldi_of_none {opa : Byte} (h : Reg.ofByte opa = none) (imm : Byte) (s : State) :
    exec (.ldi opa imm) s = .next (raise (.address .regIndex s.pc opa.toNat) s) :=
  withReg_of_none h s _

/-- Settles O24: the register write with either outcome of the advance, the bad index, and the fetch of two operand
bytes. -/
theorem ldiLoadsTheLiteral : Obligations.LdiLoadsTheLiteral := by
  intro s opa imm
  refine ⟨fun a ha hpc => ?_, fun a ha hpc => ?_, fun hopa => ?_, fun hrun hop => ?_⟩
  · have hadv : advance 3 (s.setReg a imm) = (s.setReg a imm).setPc (s.pc + 3) := advance_of_le hpc
    rw [exec_ldi_of_some ha, hadv]
    rfl
  · have hadv : advance 3 (s.setReg a imm) = raise (.address .nextPc s.pc (s.pc.toNat + 3)) (s.setReg a imm) :=
      advance_of_lt hpc
    rw [exec_ldi_of_some ha, hadv]
    rfl
  · exact exec_ldi_of_none ((ofByte_eq_none_iff opa).mpr hopa) imm s
  · exact step_opAB (k := .ldi) hrun hop rfl

end Sys2Proof.Proofs
end

section
/-!
PROOF. MUL and ADD (42_alu.md). The check of two register operands is stated for every instruction that has them, and
the write of an ALU result for every tag that has one.
-/

namespace Sys2Proof.Proofs

open Sys2Proof.Machine

/-! ## Two register operands, the first checked before the second (R104) -/

theorem withRegs_of_some {opa opb : Byte} {a b : Reg} (ha : Reg.ofByte opa = some a) (hb : Reg.ofByte opb = some b)
    (s : State) (go : Reg → Reg → Result) : withRegs opa opb s go = go a b := by
  rw [withRegs, withReg_of_some ha, withReg_of_some hb]

theorem withRegs_of_first_gt {opa : Byte} (ha : 7 < opa.toNat) (opb : Byte) (s : State) (go : Reg → Reg → Result) :
    withRegs opa opb s go = .next (raise (.address .regIndex s.pc opa.toNat) s) :=
  withReg_of_none ((ofByte_eq_none_iff opa).mpr ha) s _

theorem withRegs_of_second_gt {opa opb : Byte} (ha : opa.toNat ≤ 7) (hb : 7 < opb.toNat) (s : State)
    (go : Reg → Reg → Result) :
    withRegs opa opb s go = .next (raise (.address .regIndex s.pc opb.toNat) s) := by
  have hsome : Reg.ofByte opa ≠ none := mt (ofByte_eq_none_iff opa).mp (Nat.not_lt.mpr ha)
  obtain ⟨a, ha'⟩ := Option.ne_none_iff_exists'.mp hsome
  rw [withRegs, withReg_of_some ha', withReg_of_none ((ofByte_eq_none_iff opb).mpr hb)]

/-! ## The write of an ALU result with either outcome of the advance (R106, R143) -/

section

variable {op : AluOp} {a b : Reg} {s : State} {v : Byte} (hv : alu op (s.reg a) (s.reg b) = .result v)
include hv

theorem aluInstruction_of_result : aluInstruction op a b s = .next (advance 3 (s.setReg a v)) := by
  rw [aluInstruction, hv]

theorem aluInstruction_of_result_of_le (hpc : s.pc.toNat + 3 ≤ 255) :
    aluInstruction op a b s = .next { s with x := s.x.set a v, pc := s.pc + 3 } := by
  have hadv : advance 3 (s.setReg a v) = (s.setReg a v).setPc (s.pc + 3) := advance_of_le hpc
  rw [aluInstruction_of_result hv, hadv]
  rfl

theorem aluInstruction_of_result_of_lt (hpc : 255 < s.pc.toNat + 3) :
    aluInstruction op a b s =
      .next { s with x := s.x.set a v, run := .faulted (.address .nextPc s.pc (s.pc.toNat + 3)) } := by
  have hadv : advance 3 (s.setReg a v) = raise (.address .nextPc s.pc (s.pc.toNat + 3)) (s.setReg a v) :=
    advance_of_lt hpc
  rw [aluInstruction_of_result hv, hadv]
  rfl

end

/-! ## The results modulo 256 (R141) -/

theorem alu_mul_eq_result (va vb : Byte) :
    alu .mul va vb = .result (BitVec.ofNat 8 (va.toNat * vb.toNat % 256)) := by
  have h : va * vb = BitVec.ofNat 8 (va.toNat * vb.toNat % 256) := BitVec.eq_of_toNat_eq (by simp)
  rw [alu, h]

theorem alu_add_eq_result (va vb : Byte) :
    alu .add va vb = .result (BitVec.ofNat 8 ((va.toNat + vb.toNat) % 256)) := by
  have h : va + vb = BitVec.ofNat 8 ((va.toNat + vb.toNat) % 256) := BitVec.eq_of_toNat_eq (by simp)
  rw [alu, h]

/-! ## The statements -/

/-- Settles O26: the product's write with either outcome of the advance, the bad index in either place, and the fetch of
two operand bytes. -/
theorem mulMultipliesModulo256 : Obligations.MulMultipliesModulo256 := by
  intro s opa opb
  refine ⟨fun a b ha hb hpc => ?_, fun a b ha hb hpc => ?_, fun ha => ?_, fun ha hb => ?_, fun hrun hop => ?_⟩
  · exact (withRegs_of_some ha hb s _).trans (aluInstruction_of_result_of_le (alu_mul_eq_result _ _) hpc)
  · exact (withRegs_of_some ha hb s _).trans (aluInstruction_of_result_of_lt (alu_mul_eq_result _ _) hpc)
  · exact withRegs_of_first_gt ha opb s _
  · exact withRegs_of_second_gt ha hb s _
  · exact step_opAB (k := .mul) hrun hop rfl

/-- Settles O27: the sum's write with either outcome of the advance, the bad index in either place, and the fetch of two
operand bytes. -/
theorem addAddsModulo256 : Obligations.AddAddsModulo256 := by
  intro s opa opb
  refine ⟨fun a b ha hb hpc => ?_, fun a b ha hb hpc => ?_, fun ha => ?_, fun ha hb => ?_, fun hrun hop => ?_⟩
  · exact (withRegs_of_some ha hb s _).trans (aluInstruction_of_result_of_le (alu_add_eq_result _ _) hpc)
  · exact (withRegs_of_some ha hb s _).trans (aluInstruction_of_result_of_lt (alu_add_eq_result _ _) hpc)
  · exact withRegs_of_first_gt ha opb s _
  · exact withRegs_of_second_gt ha hb s _
  · exact step_opAB (k := .add) hrun hop rfl

end Sys2Proof.Proofs
end

section
/-!
PROOF. RET (43_stack_and_call.md). The increment of the stack pointer is stated for any base, and the fetch of no operand
byte for every instruction of one byte.
-/

namespace Sys2Proof.Proofs

open Sys2Proof.Machine

/-! ## The increment of the stack pointer, by whether it is 255 (R160) -/

theorem stackIncrement_of_ne {base : Byte} (h : base ≠ 0xFF) (s : State) : stackIncrement s base = .ok (base + 1) := by
  obtain ⟨heq, -⟩ | ⟨-, hi⟩ := stackIncrement_cases s base
  · exact absurd heq h
  · exact hi

theorem stackIncrement_of_eq {base : Byte} (h : base = 0xFF) (s : State) :
    stackIncrement s base = .error (.address .stackHigh s.pc 256) := by
  obtain ⟨-, hi⟩ | ⟨hne, -⟩ := stackIncrement_cases s base
  · exact hi
  · exact absurd h hne

/-! ## The fetch of no operand byte (R103) -/

/-- A step at the opcode byte of a kind without operand bytes executes at every pc. -/
theorem step_op {s : State} {k : Kind} {i : Instr} (hrun : s.run = .running)
    (hop : s.memRead s.pc = Config.OP.value k) (hk : k.shape = .op i) : step s = exec i s := by
  rw [step_of_running hrun, fetchInstr_of_value hop, hk]
  exact orRaise_ok s _ _

/-! ## RET (R164) -/

theorem exec_ret_of_sp_ne {s : State} (h : s.sp ≠ 0xFF) :
    exec .ret s = .next ((s.setReg Reg.sp (s.sp + 1)).setPc (stackTop s)) := by
  rw [exec, execRet, stackIncrement_of_ne h, orRaise_ok]

theorem exec_ret_of_sp_eq {s : State} (h : s.sp = 0xFF) :
    exec .ret s = .next (raise (.address .stackHigh s.pc 256) s) := by
  rw [exec, execRet, stackIncrement_of_eq h, orRaise_error]

/-- Settles O32: the pop by whether the stack pointer is 255, and the fetch of no operand byte. -/
theorem retPopsThePc : Obligations.RetPopsThePc := fun _ =>
  ⟨exec_ret_of_sp_ne, exec_ret_of_sp_eq, fun hrun hop => step_op (k := .ret) hrun hop rfl⟩

end Sys2Proof.Proofs
end

section
/-!
PROOF. JMP (44_branch.md). The fetch of one operand byte is stated for every instruction that has exactly one.
-/

namespace Sys2Proof.Proofs

open Sys2Proof.Machine

/-! ## The fetch of one operand byte (R103) -/

/-- The one operand byte is missing only at 255, and the fault reports address 256. -/
theorem fetchOperands_opA (s : State) (make : Byte → Instr) :
    fetchOperands s (.opA make) =
      if s.pc.toNat = 255 then .error (.address .operandFetch s.pc 256) else .ok (make s.opa) := by
  have hpc := s.pc.isLt
  by_cases h255 : s.pc.toNat = 255
  · have h1 : fetchOperand s 1 = .error (.address .operandFetch s.pc 256) := fetchOperand_of_eq_256 (by omega)
    simp [fetchOperands, h1, h255]
  · have h1 : fetchOperand s 1 = .ok s.opa := fetchOperand_of_le (by omega)
    simp [fetchOperands, h1, h255]

/-- A step at the opcode byte of a kind with one operand byte. -/
theorem step_opA {s : State} {k : Kind} {make : Byte → Instr} (hrun : s.run = .running)
    (hop : s.memRead s.pc = Config.OP.value k) (hk : k.shape = .opA make) :
    step s = if s.pc.toNat = 255 then .next (raise (.address .operandFetch s.pc 256) s)
      else exec (make s.opa) s := by
  rw [step_of_running hrun, fetchInstr_of_value hop, hk, fetchOperands_opA]
  split
  · exact orRaise_error s _ _
  · exact orRaise_ok s _ _

/-! ## JMP (R180) -/

/-- JMP with a register operand takes the register's value as the pc, at every pc. -/
theorem exec_jmp_of_some {opa : Byte} {a : Reg} (h : Reg.ofByte opa = some a) (s : State) :
    exec (.jmp opa) s = .next (s.setPc (s.reg a)) :=
  withReg_of_some h s _

theorem exec_jmp_of_none {opa : Byte} (h : Reg.ofByte opa = none) (s : State) :
    exec (.jmp opa) s = .next (raise (.address .regIndex s.pc opa.toNat) s) :=
  withReg_of_none h s _

/-- Settles O33: the transfer to the register's value, the bad index, and the fetch of one operand byte. -/
theorem jmpJumps : Obligations.JmpJumps := fun s opa =>
  ⟨fun _ ha => exec_jmp_of_some ha s, fun hopa => exec_jmp_of_none ((ofByte_eq_none_iff opa).mpr hopa) s,
    fun hrun hop => step_opA (k := .jmp) hrun hop rfl⟩

end Sys2Proof.Proofs
end

section
/-!
PROOF. The fault of a byte that is no opcode (60_exceptions.md, R190). What a step can do to the run state is stated for
every instruction and every fault: execution itself reports address faults alone, so code 1 comes from the decode phase.
-/

namespace Sys2Proof.Proofs

open Sys2Proof.Machine

/-! ## The run state after an instruction (R130, R192) -/

/-- The run state is kept, or is an address fault of the instruction at the pc of `s`. -/
def RunKeptOrAddressFault (s t : State) : Prop :=
  t.run = s.run ∨ ∃ sub addr, t.run = .faulted (.address sub s.pc addr)

namespace RunKeptOrAddressFault

variable {s u : State}

theorem of_raise (sub : AddrSub) (addr : Int) : RunKeptOrAddressFault s (raise (.address sub s.pc addr) s) :=
  .inr ⟨sub, addr, rfl⟩

/-- The advance is taken from a state that the instruction's effect left at the same pc. -/
theorem of_advance (len : Nat) (hpc : u.pc = s.pc) (hrun : u.run = s.run) :
    RunKeptOrAddressFault s (advance len u) := by
  obtain ⟨-, ha⟩ | ⟨-, ha⟩ := advance_cases len u
  · exact .inl (by rw [ha, setPc_run, hrun])
  · exact .inr ⟨.nextPc, _, by rw [ha, raise_run, hpc]⟩

theorem of_jumpIf (taken : Bool) (a : Reg) : RunKeptOrAddressFault s (jumpIf taken a s) := by
  obtain ⟨-, hj⟩ | ⟨-, hj⟩ := jumpIf_cases taken a s
  · exact .inl (by rw [hj, setPc_run])
  · exact hj ▸ of_advance 2 rfl rfl

end RunKeptOrAddressFault

open RunKeptOrAddressFault in
/-- An instruction halts, keeps the run state or reports an address fault, `NEXT_PC` among them. -/
theorem exec_run_cases {i : Instr} {s t : State} (h : exec i s = .next t) :
    t.run = .halted ∨ RunKeptOrAddressFault s t := by
  cases i with
  | hlt => exact .inl (by rw [exec_hlt_cases h, halt_run])
  | ldi opa imm =>
    obtain ⟨-, rfl⟩ | ⟨a, -, rfl⟩ := exec_ldi_cases h
    exacts [.inr (of_raise _ _), .inr (of_advance 3 rfl rfl)]
  | prn opa =>
    obtain ⟨-, rfl⟩ | ⟨a, -, rfl⟩ := exec_prn_cases h
    exacts [.inr (of_raise _ _), .inr (of_advance 2 rfl rfl)]
  | mul opa opb =>
    obtain ⟨b, -, -, rfl⟩ | ⟨a, b, -, -, rfl⟩ := exec_mul_cases h
    exacts [.inr (of_raise _ _), .inr (of_advance 3 rfl rfl)]
  | add opa opb =>
    obtain ⟨b, -, -, rfl⟩ | ⟨a, b, -, -, rfl⟩ := exec_add_cases h
    exacts [.inr (of_raise _ _), .inr (of_advance 3 rfl rfl)]
  | cmp opa opb =>
    obtain ⟨b, -, -, rfl⟩ | ⟨a, b, -, -, rfl⟩ := exec_cmp_cases h
    exacts [.inr (of_raise _ _), .inr (of_advance 3 rfl rfl)]
  | push opa =>
    obtain ⟨-, rfl⟩ | ⟨-, rfl⟩ | ⟨a, -, -, rfl⟩ := exec_push_cases h
    exacts [.inr (of_raise _ _), .inr (of_raise _ _), .inr (of_advance 2 rfl rfl)]
  | pop opa =>
    obtain ⟨-, rfl⟩ | ⟨a, -, ⟨-, rfl⟩ | ⟨-, rfl⟩⟩ := exec_pop_cases h
    exacts [.inr (of_raise _ _), .inr (of_raise _ _), .inr (of_advance 2 rfl rfl)]
  | call opa =>
    obtain ⟨-, rfl⟩ | ⟨-, rfl⟩ | ⟨-, -, rfl⟩ | ⟨a, -, -, -, rfl⟩ := exec_call_cases h
    exacts [.inr (of_raise _ _), .inr (of_raise _ _), .inr (of_raise _ _), .inr (.inl rfl)]
  | ret =>
    obtain ⟨-, rfl⟩ | ⟨-, rfl⟩ := exec_ret_cases h
    exacts [.inr (of_raise _ _), .inr (.inl rfl)]
  | jmp opa =>
    obtain ⟨-, rfl⟩ | ⟨a, -, rfl⟩ := exec_jmp_cases h
    exacts [.inr (of_raise _ _), .inr (of_jumpIf _ a)]
  | jeq opa =>
    obtain ⟨-, rfl⟩ | ⟨a, -, rfl⟩ := exec_jeq_cases h
    exacts [.inr (of_raise _ _), .inr (of_jumpIf _ a)]
  | jne opa =>
    obtain ⟨-, rfl⟩ | ⟨a, -, rfl⟩ := exec_jne_cases h
    exacts [.inr (of_raise _ _), .inr (of_jumpIf _ a)]

/-! ## The records that a step reports (R190, R192) -/

/-- An instruction executed by a running machine reports no fault but an address fault. -/
theorem exec_fault_is_address {i : Instr} {s t : State} {r : FaultRec} (hrun : s.run = .running)
    (h : exec i s = .next t) (ht : t.run = .faulted r) : ∃ sub addr, r = .address sub s.pc addr := by
  obtain hh | hk | ⟨sub, addr, ha⟩ := exec_run_cases h
  · cases ht.symm.trans hh
  · cases ht.symm.trans (hk.trans hrun)
  · exact ⟨sub, addr, RunState.faulted.inj (ht.symm.trans ha)⟩

/-- A step reports the byte at the pc if it decodes to nothing, or else an address fault. -/
theorem step_fault_cases {s t : State} {r : FaultRec} (h : step s = .next t) (ht : t.run = .faulted r) :
    (decodeKind (s.memRead s.pc) = none ∧ r = .unrecognizedOpcode s.pc (s.memRead s.pc)) ∨
    ∃ sub addr, r = .address sub s.pc addr := by
  obtain ⟨hrun, ⟨r', hf, rfl⟩ | ⟨i, -, he⟩⟩ := step_eq_next h
  · cases ht
    obtain ⟨i, hi, -⟩ | ⟨hd, hu⟩ | ⟨k, n, -, -, -, -, ho⟩ := fetchInstr_cases s
    · cases hf.symm.trans hi
    · exact .inl ⟨hd, Except.error.inj (hf.symm.trans hu)⟩
    · exact .inr ⟨_, _, Except.error.inj (hf.symm.trans ho)⟩
  · exact .inr (exec_fault_is_address hrun he ht)

/-- A step at a byte that decodes to nothing takes the fault of the decode phase (R102). -/
theorem step_of_decodeKind_none {s : State} (hrun : s.run = .running) (h : decodeKind (s.memRead s.pc) = none) :
    step s = .next (raise (.unrecognizedOpcode s.pc (s.memRead s.pc)) s) := by
  rw [step_of_running hrun, fetchInstr, h, orRaise_error]

/-- There is no step after a fault (R200, R203). -/
theorem step_raise_ne_next (r : FaultRec) (s u : State) : step (raise r s) ≠ .next u :=
  fun h => nomatch running_of_step h

/-- Settles O14: the decode phase takes the fault, no step follows it, and every other fault of a step is an address
fault, whose code is 3. -/
theorem unrecognizedOpcodeIsReported : Obligations.UnrecognizedOpcodeIsReported := by
  refine fun s hrun => ⟨fun hop => ?_, fun t r h ht hcode => ?_⟩
  · have hnone : decodeKind (s.memRead s.pc) = none := (decodeKind_eq_none_iff _).mpr hop
    exact ⟨step_of_decodeKind_none hrun hnone, rfl, step_raise_ne_next _ s⟩
  · obtain ⟨hnone, -⟩ | ⟨sub, addr, rfl⟩ := step_fault_cases h ht
    · exact (decodeKind_eq_none_iff _).mp hnone
    · cases hcode

end Sys2Proof.Proofs
end

section
/-!
PROOF. The encoder and the decoder as inverses (30_encoding.md), over an arbitrary tuple `OP`: the format of a kind
takes exactly the operand bytes of an instruction of that kind.
-/

namespace Sys2Proof.Proofs

open Sys2Proof.Laws

/-- The format of an instruction's kind takes back its operand bytes (R76): the laws of the thirteen together. -/
theorem shape_take_operands (i : Instr) : ShapeTakesOperands.Statement i := by
  cases i with
  | hlt => exact ShapeTakesOperands.hlt
  | ldi opa imm => exact ShapeTakesOperands.ldi opa imm
  | prn opa => exact ShapeTakesOperands.prn opa
  | mul opa opb => exact ShapeTakesOperands.mul opa opb
  | add opa opb => exact ShapeTakesOperands.add opa opb
  | cmp opa opb => exact ShapeTakesOperands.cmp opa opb
  | push opa => exact ShapeTakesOperands.push opa
  | pop opa => exact ShapeTakesOperands.pop opa
  | call opa => exact ShapeTakesOperands.call opa
  | ret => exact ShapeTakesOperands.ret
  | jmp opa => exact ShapeTakesOperands.jmp opa
  | jeq opa => exact ShapeTakesOperands.jeq opa
  | jne opa => exact ShapeTakesOperands.jne opa

/-- A list of bytes that begins with a kind's opcode byte decodes by the kind's format. -/
theorem decodeWith_cons {T : OpTable} {b : Byte} {k : Kind} (h : decodeKindWith T b = some k) (bytes : List Byte) :
    decodeWith T (b :: bytes) = k.shape.take bytes := by
  rw [decodeWith, h]

/-- Settles O8: the opcode byte decodes to the instruction's kind, whose format takes back the operand bytes. -/
theorem decodeAfterEncode : Obligations.DecodeAfterEncode := fun _ hT i rest =>
  (decodeWith_cons (decodeKindWith_value hT i.kind) (i.operands ++ rest)).trans (shape_take_operands i rest)

/-- What a format of one operand byte takes is the first byte. -/
theorem take_opA_eq_ok {make : Byte → Instr} {bytes rest : List Byte} {i : Instr}
    (h : (Shape.opA make).take bytes = .ok (i, rest)) : ∃ a, i = make a ∧ bytes = a :: rest := by
  cases bytes with
  | nil => cases h
  | cons a bytes =>
    cases h
    exact ⟨a, rfl, rfl⟩

/-- What a format of two operand bytes takes is the first two bytes. -/
theorem take_opAB_eq_ok {make : Byte → Byte → Instr} {bytes rest : List Byte} {i : Instr}
    (h : (Shape.opAB make).take bytes = .ok (i, rest)) : ∃ a b, i = make a b ∧ bytes = a :: b :: rest := by
  match bytes, h with
  | a :: b :: _, rfl => exact ⟨a, b, rfl, rfl⟩

/-- The format of a kind takes the operand bytes of an instruction of that kind and no other byte (R75, R83). -/
theorem operands_of_shape_take {k : Kind} {bytes rest : List Byte} {i : Instr}
    (h : k.shape.take bytes = .ok (i, rest)) : i.kind = k ∧ bytes = i.operands ++ rest := by
  cases k with
  | hlt | ret =>
    cases h
    exact ⟨rfl, rfl⟩
  | prn | push | pop | call | jmp | jeq | jne =>
    obtain ⟨a, rfl, rfl⟩ := take_opA_eq_ok h
    exact ⟨rfl, rfl⟩
  | ldi | mul | add | cmp =>
    obtain ⟨a, b, rfl, rfl⟩ := take_opAB_eq_ok h
    exact ⟨rfl, rfl⟩

/-- Settles O9: the first byte is the value of the kind found, and the kind's format took the operand bytes. -/
theorem encodeAfterDecode : Obligations.EncodeAfterDecode := by
  intro T bytes i rest h
  cases bytes with
  | nil => cases h
  | cons b bytes =>
    cases hk : decodeKindWith T b with
    | none => simp [decodeWith, hk] at h
    | some k =>
      rw [decodeWith_cons hk] at h
      obtain ⟨rfl, rfl⟩ := operands_of_shape_take h
      rw [eq_value_of_decodeKindWith hk]
      rfl

/-- Settles O11, word by word. -/
theorem specWordsDecode : Obligations.SpecWordsDecode :=
  ⟨rfl, rfl, rfl, rfl, rfl, rfl, rfl⟩

end Sys2Proof.Proofs
end

section
/-!
PROOF. The canonical form of memory and the loader (20_memory.md): what a read gives after a list of bytes is stored,
and that the form determines the list.
-/

namespace Sys2Proof.Proofs

open Sys2Proof.Machine

/-! ## The canonical form (log 9) -/

/-- An address that no cell of the list has reads as an unlisted one. -/
theorem read_of_not_listed {a : Nat} : ∀ {m : Memory}, (∀ c ∈ m, c.1 ≠ a) → Memory.read m a = Memory.unlisted
  | [], _ => rfl
  | c :: m, h => by
    obtain ⟨hc, hm⟩ := List.forall_mem_cons.mp h
    rw [Memory.read, if_neg hc, read_of_not_listed hm]

/-- A cell of a canonical memory is what its address reads as. -/
theorem read_of_mem {c : Host.Cell} : ∀ {m : Memory}, Memory.wf m → c ∈ m → Memory.read m c.1 = c.2
  | d :: m, h, hc => by
    obtain ⟨hsorted, hcells⟩ := h
    obtain ⟨hd, hm⟩ := List.pairwise_cons.mp hsorted
    obtain rfl | hc := List.mem_cons.mp hc
    · rw [Memory.read, if_pos rfl]
    · rw [Memory.read, if_neg (hd c hc).ne, read_of_mem ⟨hm, (List.forall_mem_cons.mp hcells).2⟩ hc]

/-- The cells of a canonical memory are the bytes that do not read as an unlisted address does. -/
theorem mem_iff_read {m : Memory} (h : Memory.wf m) (c : Host.Cell) :
    c ∈ m ↔ Memory.read m c.1 = c.2 ∧ c.2 ≠ Memory.unlisted := by
  refine ⟨fun hc => ⟨read_of_mem h hc, (h.2 c hc).2⟩, fun ⟨hread, hne⟩ => ?_⟩
  by_contra hc
  refine hne (hread ▸ read_of_not_listed fun d hd heq => hc ?_)
  have hdc : d.2 = c.2 := (read_of_mem h hd).symm.trans (heq ▸ hread)
  exact Prod.ext heq hdc ▸ hd

/-- A cell of a canonical memory is a cell of every canonical memory that reads alike. -/
theorem mem_of_read_eq {m n : Memory} (hm : Memory.wf m) (hn : Memory.wf n)
    (hread : ∀ a : Byte, Memory.read m a.toNat = Memory.read n a.toNat) {c : Host.Cell} (hc : c ∈ m) : c ∈ n := by
  have hlt : c.1 < 256 := (hm.2 c hc).1
  have hc' := hread (BitVec.ofNat 8 c.1)
  rw [BitVec.toNat_ofNat, Nat.mod_eq_of_lt hlt] at hc'
  rw [mem_iff_read hm] at hc
  rwa [mem_iff_read hn, ← hc']

/-- Settles O5: memories that read alike have the same cells, and a list rising by address is determined by them. -/
theorem canonicalMemoriesAreEqual : Obligations.CanonicalMemoriesAreEqual := fun _ _ hm hn hread =>
  List.Pairwise.eq_of_mem_iff hm.1 hn.1 fun _ =>
    ⟨mem_of_read_eq hm hn hread, mem_of_read_eq hn hm fun a => (hread a).symm⟩

/-! ## Storing a list of bytes (R53, R59) -/

/-- What an address below 256 reads as after bytes are stored at ascending addresses from `a`. -/
theorem read_store {b : Nat} (hb : b < 256) : ∀ (bytes : List Byte) (m : Memory) (a : Nat),
    Memory.read (Memory.store m a bytes) b = if a ≤ b then bytes.getD (b - a) (Memory.read m b) else Memory.read m b
  | [], m, a => by simp [Memory.store]
  | v :: bytes, m, a => by
    by_cases ha : a < Config.MEM_SIZE
    · rw [Memory.store, if_pos ha, read_store hb bytes, Memory.read_write]
      obtain hlt | rfl | hgt := Nat.lt_trichotomy a b
      · obtain ⟨d, rfl⟩ := Nat.exists_eq_add_of_lt hlt
        have hrest : a + d + 1 - (a + 1) = d := by omega
        have hall : a + d + 1 - a = d + 1 := by omega
        have hne : a + d + 1 ≠ a := by omega
        have hle : a ≤ a + d + 1 := by omega
        simp [hrest, hall, hne, hle]
      · simp
      · have hle : ¬ a + 1 ≤ b := by omega
        simp [hgt.ne, hle, Nat.not_le.mpr hgt]
    · have hge : 256 ≤ a := Nat.not_lt.mp ha
      have hle : ¬ a ≤ b := by omega
      rw [Memory.store, if_neg ha, if_neg hle]

/-- Settles O7: the store from address 0 into the empty memory. -/
theorem launchPlacesTheProgram : Obligations.LaunchPlacesTheProgram := by
  refine fun p => ⟨fun hle => ⟨_, if_pos hle, rfl, Memory.wf_store p 0 reset_mem_wf, fun a => ?_⟩, fun hlt => ?_⟩
  · exact (read_store a.isLt p State.reset.mem 0).trans (if_pos (Nat.zero_le _))
  · exact if_neg (Nat.not_le.mpr hlt)

/-! ## Reset (R59, R221) -/

/-- Settles O2, element by element: the reset memory is the empty list. -/
theorem resetClearsTheRest : Obligations.ResetClearsTheRest := fun _ =>
  ⟨rfl, rfl, rfl, rfl, fun _ => rfl, fun _ => rfl⟩

/-- Settles O3: the canonical form of the reset memory, with legal flags and no fault by evaluation. -/
theorem resetMeetsInvariant : Obligations.ResetMeetsInvariant :=
  ⟨rfl, reset_mem_wf, rfl⟩

end Sys2Proof.Proofs
end

section
/-!
PROOF. The instruction at the pc (40_cycle_and_blocks.md, R100 to R105): which one the fetch phase gives for an opcode
byte, and that it is the one whose encoding the bytes from the pc begin with.
-/

namespace Sys2Proof.Proofs

open Sys2Proof.Machine

/-! ## The fetch phase, by kind (R103) -/

/-- The instruction of a kind with these operand bytes, of which its format may use none or the first. -/
def instrOf (k : Kind) (opa opb : Byte) : Instr :=
  match k.shape with
  | .op i => i
  | .opA make => make opa
  | .opAB make => make opa opb

@[simp] theorem instrOf_kind (k : Kind) (opa opb : Byte) : (instrOf k opa opb).kind = k := by
  cases k <;> rfl

/-- The instruction of a kind with the operand bytes that stand after the pc. -/
abbrev instrAtPc (s : State) (k : Kind) : Instr := instrOf k s.opa s.opb

/-- The operand fetch of a kind fails exactly when the instruction would end above address 255. -/
theorem fetchOperands_shape (s : State) (k : Kind) :
    fetchOperands s k.shape =
      if 256 < s.pc.toNat + k.length then .error (.address .operandFetch s.pc 256) else .ok (instrAtPc s k) := by
  have hpc := s.pc.isLt
  cases k with
  | hlt | ret =>
    have hfit : ¬ 256 < s.pc.toNat + 1 := by omega
    exact (if_neg hfit).symm
  | prn | push | pop | call | jmp | jeq | jne =>
    have hmiss : 256 < s.pc.toNat + 2 ↔ s.pc.toNat = 255 := by omega
    simp only [Kind.shape, Kind.length, fetchOperands_opA, hmiss, instrOf]
  | ldi | mul | add | cmp =>
    have hmiss : 256 < s.pc.toNat + 3 ↔ 254 ≤ s.pc.toNat := by omega
    simp only [Kind.shape, Kind.length, fetchOperands_opAB, hmiss, instrOf]

/-- The fetch phase gives an instruction exactly at its opcode byte and when no operand byte is missing. -/
theorem fetchInstr_eq_ok_iff {s : State} {i : Instr} :
    fetchInstr s = .ok i ↔
      s.memRead s.pc = Config.OP.value i.kind ∧ s.pc.toNat + i.kind.length ≤ 256 ∧ i = instrAtPc s i.kind := by
  constructor
  · intro h
    obtain ⟨j, hj, hd⟩ | ⟨-, hf⟩ | ⟨k, n, -, -, -, -, hf⟩ := fetchInstr_cases s
    · cases h.symm.trans hj
      have hop := (decodeKind_eq_some_iff _ _).mp hd
      rw [fetchInstr_of_value hop, fetchOperands_shape] at h
      split at h
      · cases h
      · exact ⟨hop, by omega, (Except.ok.inj h).symm⟩
    · cases h.symm.trans hf
    · cases h.symm.trans hf
  · rintro ⟨hop, hlen, hi⟩
    rw [fetchInstr_of_value hop, fetchOperands_shape, if_neg (by omega), ← hi]

/-- A running machine's step at an opcode byte: a missing operand is reported, or the instruction at the pc executed. -/
theorem step_of_value {s : State} {k : Kind} (hrun : s.run = .running) (hop : s.memRead s.pc = Config.OP.value k) :
    step s = if 256 < s.pc.toNat + k.length then .next (raise (.address .operandFetch s.pc 256) s)
      else exec (instrAtPc s k) s := by
  rw [step_of_running hrun, fetchInstr_of_value hop, fetchOperands_shape]
  split
  · exact orRaise_error s _ _
  · exact orRaise_ok s _ _

theorem step_of_fetchInstr {s : State} {i : Instr} (hrun : s.run = .running) (h : fetchInstr s = .ok i) :
    step s = exec i s := by
  rw [step_of_running hrun, h, orRaise_ok]

/-! ## The bytes from the pc (R54, R75) -/

theorem bytesFromPc_getElem? (s : State) (n : Nat) :
    s.bytesFromPc[n]? = if s.pc.toNat + n < 256 then some (s.memRead (s.pc + BitVec.ofNat 8 n)) else none := by
  have hadd : BitVec.ofNat 8 (s.pc.toNat + n) = s.pc + BitVec.ofNat 8 n := by
    rw [BitVec.ofNat_add, BitVec.ofNat_toNat, BitVec.setWidth_eq]
  by_cases hn : s.pc.toNat + n < 256
  · have hrange : n < 256 - s.pc.toNat := by omega
    simp [State.bytesFromPc, hn, hrange, hadd]
  · have hrange : 256 - s.pc.toNat ≤ n := by omega
    simp [State.bytesFromPc, hn, hrange]

/-- A list of bytes stands at the pc exactly when it fits below address 256 and each byte is in its place. -/
theorem bytes_at_pc_iff {s : State} {bytes : List Byte} :
    bytes <+: s.bytesFromPc ↔
      ∀ (n : Nat) (h : n < bytes.length), s.pc.toNat + n < 256 ∧ s.memRead (s.pc + BitVec.ofNat 8 n) = bytes[n] := by
  rw [List.prefix_iff_getElem?]
  refine forall_congr' fun n => forall_congr' fun h => ?_
  rw [bytesFromPc_getElem?]
  by_cases hn : s.pc.toNat + n < 256 <;> simp [hn]

@[simp] theorem memRead_pc_add_zero (s : State) : s.memRead (s.pc + BitVec.ofNat 8 0) = s.memRead s.pc := by simp

theorem one_byte_at_pc_iff {s : State} {v : Byte} : [v] <+: s.bytesFromPc ↔ s.memRead s.pc = v := by
  have hpc := s.pc.isLt
  rw [bytes_at_pc_iff]
  constructor
  · intro h
    simpa using (h 0 (by simp)).2
  · rintro hv (_ | n) hn
    · exact ⟨hpc, by simpa using hv⟩
    · simp at hn

theorem two_bytes_at_pc_iff {s : State} {v a : Byte} :
    [v, a] <+: s.bytesFromPc ↔ s.memRead s.pc = v ∧ s.pc.toNat + 2 ≤ 256 ∧ s.opa = a := by
  rw [bytes_at_pc_iff]
  constructor
  · intro h
    exact ⟨by simpa using (h 0 (by simp)).2, (h 1 (by simp)).1, (h 1 (by simp)).2⟩
  · rintro ⟨hv, hlen, ha⟩ n hn
    refine ⟨by simp at hn; omega, ?_⟩
    match n, hn with
    | 0, _ => simpa using hv
    | 1, _ => exact ha

theorem three_bytes_at_pc_iff {s : State} {v a b : Byte} :
    [v, a, b] <+: s.bytesFromPc ↔ s.memRead s.pc = v ∧ s.pc.toNat + 3 ≤ 256 ∧ s.opa = a ∧ s.opb = b := by
  rw [bytes_at_pc_iff]
  constructor
  · intro h
    exact ⟨by simpa using (h 0 (by simp)).2, (h 2 (by simp)).1, (h 1 (by simp)).2, (h 2 (by simp)).2⟩
  · rintro ⟨hv, hlen, ha, hb⟩ n hn
    refine ⟨by simp at hn; omega, ?_⟩
    match n, hn with
    | 0, _ => simpa using hv
    | 1, _ => exact ha
    | 2, _ => exact hb

/-- The fetch phase gives an instruction exactly when the bytes from the pc begin with its encoding. -/
theorem fetchInstr_eq_ok_iff_encode {s : State} {i : Instr} : fetchInstr s = .ok i ↔ encode i <+: s.bytesFromPc := by
  have hpc := s.pc.isLt
  rw [fetchInstr_eq_ok_iff]
  cases i with
  | hlt | ret =>
    have hlen : s.pc.toNat + 1 ≤ 256 := by omega
    exact (and_iff_left ⟨hlen, rfl⟩).trans one_byte_at_pc_iff.symm
  | prn a | push a | pop a | call a | jmp a | jeq a | jne a =>
    refine Iff.trans ?_ two_bytes_at_pc_iff.symm
    simp [instrOf, Kind.shape, Instr.kind, Kind.length, eq_comm]
  | ldi a b | mul a b | add a b | cmp a b =>
    refine Iff.trans ?_ three_bytes_at_pc_iff.symm
    simp [instrOf, Kind.shape, Instr.kind, Kind.length, eq_comm]

/-! ## The statements -/

/-- What the bytes from the pc decode to is what the fetch phase gives. -/
theorem fetchInstr_of_decode {s : State} {i : Instr} {rest : List Byte} (h : decode s.bytesFromPc = .ok (i, rest)) :
    fetchInstr s = .ok i :=
  fetchInstr_eq_ok_iff_encode.mpr ⟨rest, (encodeAfterDecode Config.OP _ i rest h).symm⟩

/-- What the fetch phase gives is what the bytes from the pc decode to. -/
theorem decode_of_fetchInstr {s : State} {i : Instr} (h : fetchInstr s = .ok i) :
    ∃ rest, decode s.bytesFromPc = .ok (i, rest) := by
  obtain ⟨rest, hrest⟩ := fetchInstr_eq_ok_iff_encode.mp h
  exact ⟨rest, hrest ▸ decodeAfterEncode Config.OP (by decide) i rest⟩

/-- Settles O12: what the bytes from the pc decode to is what the fetch phase gives. -/
theorem stepRunsTheDecodedInstruction : Obligations.StepRunsTheDecodedInstruction := fun _ _ _ hrun h =>
  step_of_fetchInstr hrun (fetchInstr_of_decode h)

/-- Bytes stored at the pc with room below address 256 are the bytes from the pc. -/
theorem stored_bytes_at_pc {s : State} {bytes : List Byte} (h : s.pc.toNat + bytes.length ≤ 256) :
    bytes <+: State.bytesFromPc { s with mem := Memory.store s.mem s.pc.toNat bytes } := by
  refine bytes_at_pc_iff.mpr fun n hn => ?_
  have hlt : s.pc.toNat + n < 256 := by omega
  refine ⟨hlt, ?_⟩
  have haddr : (s.pc + BitVec.ofNat 8 n).toNat = s.pc.toNat + n := by
    rw [BitVec.toNat_add, BitVec.toNat_ofNat, Nat.add_mod_mod, Nat.mod_eq_of_lt hlt]
  rw [State.memRead, haddr, read_store hlt]
  simp [hn]

/-- Settles O13: the word's three bytes stand at the pc, so the encoding of the instruction they decode to does. -/
theorem fetchWordIsRun : Obligations.FetchWordIsRun := by
  intro s nbits w i hrun hpc hword
  have hstored : bytesOfWord nbits w <+: (s.withFetchWord nbits w).bytesFromPc :=
    stored_bytes_at_pc (by simp [bytesOfWord]; omega)
  rw [decodeTableWord] at hword
  cases hdec : decode (bytesOfWord nbits w) with
  | error e => rw [hdec] at hword; cases hword
  | ok p =>
    obtain ⟨j, rest⟩ := p
    rw [hdec] at hword
    cases hword
    have henc : encode i <+: bytesOfWord nbits w := ⟨rest, (encodeAfterDecode Config.OP _ i rest hdec).symm⟩
    exact step_of_fetchInstr hrun (fetchInstr_eq_ok_iff_encode.mpr (henc.trans hstored))

/-- Settles O15: the operand fetch of the kind, and for HLT and RET the fetch of no operand byte. -/
theorem missingOperandIsReported : Obligations.MissingOperandIsReported := by
  refine fun s k hrun hop => ⟨fun hmiss => ?_, ?_, ?_⟩
  · rw [step_of_value hrun hop, if_pos (by omega)]
    rfl
  · rintro rfl
    exact step_op hrun hop rfl
  · rintro rfl
    exact step_op hrun hop rfl

end Sys2Proof.Proofs
end

section
/-!
PROOF. The execute phase as a whole (R100, R104): it answers a next state for every instruction, and reports the first
byte above 7 in a register position before it does anything.
-/

namespace Sys2Proof.Proofs

open Sys2Proof.Machine

/-! ## Register operands (R104) -/

theorem exists_ofByte {b : Byte} (h : b.toNat ≤ 7) : ∃ r, Reg.ofByte b = some r :=
  Option.ne_none_iff_exists'.mp (mt (ofByte_eq_none_iff b).mp (Nat.not_lt.mpr h))

theorem withReg_of_gt {opa : Byte} (h : 7 < opa.toNat) (s : State) (go : Reg → Result) :
    withReg opa s go = .next (raise (.address .regIndex s.pc opa.toNat) s) :=
  withReg_of_none ((ofByte_eq_none_iff opa).mpr h) s go

/-- The first byte above 7 in one register position. -/
theorem withReg_of_find? {opa b : Byte} (h : ([opa].find? fun c => decide (7 < c.toNat)) = some b) (s : State)
    (go : Reg → Result) : withReg opa s go = .next (raise (.address .regIndex s.pc b.toNat) s) := by
  obtain rfl : b = opa := by simpa using List.mem_of_find?_eq_some h
  exact withReg_of_gt (by simpa using List.find?_some h) s go

/-- The first byte above 7 in two register positions. -/
theorem withRegs_of_find? {opa opb b : Byte} (h : ([opa, opb].find? fun c => decide (7 < c.toNat)) = some b) (s : State)
    (go : Reg → Reg → Result) : withRegs opa opb s go = .next (raise (.address .regIndex s.pc b.toNat) s) := by
  by_cases ha : 7 < opa.toNat
  · obtain rfl : opa = b := by simpa [ha] using h
    exact withRegs_of_first_gt ha opb s go
  · have hb : ([opb].find? fun c => decide (7 < c.toNat)) = some b := by simpa [ha] using h
    obtain rfl : b = opb := by simpa using List.mem_of_find?_eq_some hb
    exact withRegs_of_second_gt (Nat.not_lt.mp ha) (by simpa using List.find?_some hb) s go

/-- Settles O16: the check of the one or the two register operands, for each instruction that has them. -/
theorem badRegisterIndexIsReported : Obligations.BadRegisterIndexIsReported := by
  intro i s b h
  cases i with
  | hlt | ret => cases h
  | ldi a _ | prn a | push a | pop a | call a | jmp a | jeq a | jne a => exact withReg_of_find? h s _
  | mul a b | add a b | cmp a b => exact withRegs_of_find? h s _

/-! ## A next state for every instruction (R100) -/

theorem orRaise_total {α : Type} {s : State} {check : Except FaultRec α} {go : α → Result}
    (h : ∀ v, ∃ t, go v = .next t) : ∃ t, orRaise s check go = .next t := by
  cases check with
  | ok v => exact h v
  | error r => exact ⟨raise r s, rfl⟩

theorem exec_total (i : Instr) (s : State) : ∃ t, exec i s = .next t := by
  cases i with
  | hlt => exact ⟨_, rfl⟩
  | ldi | prn | jmp | jeq | jne => exact orRaise_total fun a => ⟨_, rfl⟩
  | mul | add | cmp => exact orRaise_total fun a => orRaise_total fun b => ⟨_, rfl⟩
  | push | pop => exact orRaise_total fun a => orRaise_total fun v => ⟨_, rfl⟩
  | call => exact orRaise_total fun a => orRaise_total fun ret => orRaise_total fun s1 => ⟨_, rfl⟩
  | ret => exact orRaise_total fun sp => ⟨_, rfl⟩

/-- Settles O17: the fetch phase's fault is a next state like every instruction's outcome. -/
theorem onlyARunningMachineSteps : Obligations.OnlyARunningMachineSteps := by
  refine ⟨fun s hrun => ?_, fun s hrun => ?_, fun s r hrun => ?_⟩
  · rw [step_of_running hrun]
    exact orRaise_total fun i => exec_total i s
  · simp [step, stopped, hrun]
  · simp [step, stopped, hrun]

end Sys2Proof.Proofs
end

section
/-!
PROOF. HLT and PRN (41_data_and_system.md), CMP and the ALU (42_alu.md), JEQ and JNE (44_branch.md). The outcome that
ends in the sequential advance is stated for every instruction that has it.
-/

namespace Sys2Proof.Proofs

open Sys2Proof.Machine

/-! ## An outcome that ends in the sequential advance (R106) -/

theorem next_advance_of_le {res : Result} {u : State} {len : Nat} (hres : res = .next (advance len u))
    (h : u.pc.toNat + len ≤ 255) : res = .next (u.setPc (u.pc + BitVec.ofNat 8 len)) := by
  rw [hres, advance_of_le h]

theorem next_advance_of_lt {res : Result} {u : State} {len : Nat} (hres : res = .next (advance len u))
    (h : 255 < u.pc.toNat + len) : res = .next (raise (.address .nextPc u.pc (u.pc.toNat + len)) u) := by
  rw [hres, advance_of_lt h]

/-! ## HLT and PRN (R130, R132) -/

theorem haltPc_eq (pc : Byte) : haltPc pc = if pc = 0xFF then 0xFF else pc + 1 := by
  have hpc := pc.isLt
  by_cases h : pc = 0xFF
  · rw [h]
    rfl
  · have hne : pc.toNat ≠ 255 := fun h255 => h (BitVec.eq_of_toNat_eq h255)
    rw [haltPc, if_pos (by omega), if_neg h]

/-- Settles O23: the pc after HLT, and the fetch of no operand byte. -/
theorem hltHalts : Obligations.HltHalts := by
  refine fun s => ⟨?_, fun hrun hop => step_op (k := .hlt) hrun hop rfl⟩
  rw [← haltPc_eq]
  rfl

/-- Settles O25: the emission with either outcome of the advance, the bad index, and the fetch of one operand byte. -/
theorem prnEmitsTheRegister : Obligations.PrnEmitsTheRegister := fun s _ =>
  ⟨fun _ ha hpc => next_advance_of_le (exec_prn_of_some ha s) hpc,
    fun _ ha hpc => next_advance_of_lt (exec_prn_of_some ha s) hpc,
    fun hopa => withReg_of_gt hopa s _, fun hrun hop => step_opA (k := .prn) hrun hop rfl⟩

/-! ## CMP and the ALU (R140 to R148) -/

theorem compareFlags_eq (va vb : Byte) :
    compareFlags va vb = if va.toNat = vb.toNat then 0b001 else if va.toNat > vb.toNat then 0b010 else 0b100 := by
  simp only [compareFlags, BitVec.toNat_inj]
  rfl

theorem exec_cmp_of_some {opa opb : Byte} {a b : Reg} (ha : Reg.ofByte opa = some a) (hb : Reg.ofByte opb = some b)
    (s : State) : exec (.cmp opa opb) s = .next (advance 3 (s.setFl (compareFlags (s.reg a) (s.reg b)))) :=
  withRegs_of_some ha hb s _

/-- Settles O28: the write of the flags with either outcome of the advance, the bad index in either place, and the fetch
of two operand bytes. -/
theorem cmpSetsTheFlags : Obligations.CmpSetsTheFlags := by
  intro s opa opb f
  refine ⟨fun a b ha hb hf => ?_, fun ha => withRegs_of_first_gt ha opb s _,
    fun ha hb => withRegs_of_second_gt ha hb s _, fun hrun hop => step_opAB (k := .cmp) hrun hop rfl⟩
  rw [← compareFlags_eq] at hf
  subst hf
  exact ⟨next_advance_of_le (exec_cmp_of_some ha hb s), next_advance_of_lt (exec_cmp_of_some ha hb s)⟩

/-- The quotient of the dormant division is a byte and the floor of the integers' (R148). -/
theorem alu_div_of_ne_zero (va vb : Byte) (h : vb.toNat ≠ 0) :
    ∃ v : Byte, alu .div va vb = .result v ∧ v.toNat * vb.toNat ≤ va.toNat ∧ va.toNat < (v.toNat + 1) * vb.toNat := by
  have hne : vb ≠ 0x00 := fun hz => h (congrArg BitVec.toNat hz)
  have hlt : va.toNat / vb.toNat < 2 ^ 8 := (Nat.div_le_self _ _).trans_lt va.isLt
  refine ⟨_, if_neg hne, ?_⟩
  rw [BitVec.toNat_ofNat, Nat.mod_eq_of_lt hlt]
  exact ⟨Nat.div_mul_le_self _ _, (Nat.div_lt_iff_lt_mul (Nat.pos_of_ne_zero h)).mp (Nat.lt_succ_self _)⟩

/-- The three flags are the three answers of the comparison, of which exactly one holds (R146). -/
theorem compareFlags_bits (va vb : Byte) :
    (compareFlags va vb).getLsbD 0 = decide (va.toNat = vb.toNat) ∧
    (compareFlags va vb).getLsbD 1 = decide (va.toNat > vb.toNat) ∧
    (compareFlags va vb).getLsbD 2 = decide (va.toNat < vb.toNat) := by
  rw [compareFlags_eq]
  obtain hlt | heq | hgt := Nat.lt_trichotomy va.toNat vb.toNat
  · simp [hlt, hlt.ne, hlt.not_gt]
  · simp [heq]
  · simp [hgt, hgt.ne', hgt.not_gt]

/-- Settles O36, tag by tag. -/
theorem aluComputesModulo256 : Obligations.AluComputesModulo256 := by
  intro va vb
  refine ⟨⟨_, rfl, BitVec.toNat_mul va vb⟩, ⟨_, rfl, BitVec.toNat_add va vb⟩, ⟨_, rfl, ?_⟩, alu_div_of_ne_zero va vb,
    fun h => if_pos (BitVec.eq_of_toNat_eq h), ⟨_, rfl, compareFlags_bits va vb⟩⟩
  have hb := vb.isLt
  rw [BitVec.toNat_sub]
  omega

/-! ## JEQ and JNE (R181, R182) -/

theorem exec_jeq_of_some {opa : Byte} {a : Reg} (h : Reg.ofByte opa = some a) (s : State) :
    exec (.jeq opa) s = .next (if s.fl = 0b001 then s.setPc (s.reg a) else advance 2 s) := by
  refine (withReg_of_some h s _).trans ?_
  simp [jumpIf, flagIsEqual, flagE]

theorem exec_jne_of_some {opa : Byte} {a : Reg} (h : Reg.ofByte opa = some a) (s : State) :
    exec (.jne opa) s = .next (if s.fl = 0b001 then advance 2 s else s.setPc (s.reg a)) := by
  refine (withReg_of_some h s _).trans ?_
  by_cases hfl : s.fl = 0b001 <;> simp [jumpIf, flagIsEqual, flagE, hfl]

/-- Settles O34: the transfer, either outcome of the advance, the bad index, and the fetch of one operand byte. -/
theorem jeqJumpsIfEqual : Obligations.JeqJumpsIfEqual := by
  refine fun s opa => ⟨fun a ha => ?_, fun hopa => withReg_of_gt hopa s _,
    fun hrun hop => step_opA (k := .jeq) hrun hop rfl⟩
  have hexec := exec_jeq_of_some ha s
  refine ⟨fun hfl => ?_, fun hfl hpc => ?_, fun hfl hpc => ?_⟩
  · rwa [if_pos hfl] at hexec
  · rw [if_neg hfl] at hexec
    exact next_advance_of_le hexec hpc
  · rw [if_neg hfl] at hexec
    exact next_advance_of_lt hexec hpc

/-- Settles O35: the complement of O34. -/
theorem jneJumpsIfNotEqual : Obligations.JneJumpsIfNotEqual := by
  refine fun s opa => ⟨fun a ha => ?_, fun hopa => withReg_of_gt hopa s _,
    fun hrun hop => step_opA (k := .jne) hrun hop rfl⟩
  have hexec := exec_jne_of_some ha s
  refine ⟨fun hfl => ?_, fun hfl hpc => ?_, fun hfl hpc => ?_⟩
  · rwa [if_neg hfl] at hexec
  · rw [if_pos hfl] at hexec
    exact next_advance_of_le hexec hpc
  · rw [if_pos hfl] at hexec
    exact next_advance_of_lt hexec hpc

end Sys2Proof.Proofs
end

section
/-!
PROOF. PUSH, POP and CALL (43_stack_and_call.md), by the checks of the stack pointer and of the return address.
-/

namespace Sys2Proof.Proofs

open Sys2Proof.Machine

/-! ## The checks (R160, R163) -/

theorem stackDecrement_of_ne {s : State} (h : s.sp ≠ 0x00) : stackDecrement s = .ok (pushed s) := if_neg h

theorem stackDecrement_of_eq {s : State} (h : s.sp = 0x00) :
    stackDecrement s = .error (.address .stackLow s.pc (-1)) := if_pos h

theorem returnAddress_of_le {s : State} (h : s.pc.toNat + 2 ≤ 255) : returnAddress s = .ok (s.pc + 2) := if_pos h

theorem returnAddress_of_lt {s : State} (h : 255 < s.pc.toNat + 2) :
    returnAddress s = .error (.address .returnAddr s.pc (s.pc.toNat + 2)) := if_neg (Nat.not_le.mpr h)

/-! ## The instructions on a register operand -/

section

variable {opa : Byte} {a : Reg} (ha : Reg.ofByte opa = some a) {s : State}
include ha

theorem exec_push_of_sp_ne (hsp : s.sp ≠ 0x00) :
    exec (.push opa) s = .next (advance 2 (stackStore (pushed s) ((pushed s).reg a))) :=
  (withReg_of_some ha s _).trans (by rw [stackDecrement_of_ne hsp, orRaise_ok])

theorem exec_push_of_sp_eq (hsp : s.sp = 0x00) :
    exec (.push opa) s = .next (raise (.address .stackLow s.pc (-1)) s) :=
  (withReg_of_some ha s _).trans (by rw [stackDecrement_of_eq hsp, orRaise_error])

theorem exec_pop_of_base_ne (hbase : popBase a s ≠ 0xFF) :
    exec (.pop opa) s = .next (advance 2 ((s.setReg a (stackTop s)).setReg Reg.sp (popBase a s + 1))) :=
  (withReg_of_some ha s _).trans (by rw [stackIncrement_of_ne hbase, orRaise_ok])

theorem exec_pop_of_base_eq (hbase : popBase a s = 0xFF) :
    exec (.pop opa) s = .next (raise (.address .stackHigh s.pc 256) s) :=
  (withReg_of_some ha s _).trans (by rw [stackIncrement_of_eq hbase, orRaise_error])

theorem exec_call_of_sp_ne (hpc : s.pc.toNat + 2 ≤ 255) (hsp : s.sp ≠ 0x00) :
    exec (.call opa) s = .next ((stackStore (pushed s) (s.pc + 2)).setPc ((pushed s).reg a)) :=
  (withReg_of_some ha s _).trans
    (by rw [returnAddress_of_le hpc, orRaise_ok, stackDecrement_of_ne hsp, orRaise_ok])

theorem exec_call_of_sp_eq (hpc : s.pc.toNat + 2 ≤ 255) (hsp : s.sp = 0x00) :
    exec (.call opa) s = .next (raise (.address .stackLow s.pc (-1)) s) :=
  (withReg_of_some ha s _).trans
    (by rw [returnAddress_of_le hpc, orRaise_ok, stackDecrement_of_eq hsp, orRaise_error])

theorem exec_call_of_pc_gt (hpc : 255 < s.pc.toNat + 2) :
    exec (.call opa) s = .next (raise (.address .returnAddr s.pc (s.pc.toNat + 2)) s) :=
  (withReg_of_some ha s _).trans (by rw [returnAddress_of_lt hpc, orRaise_error])

end

/-- A store after the decrement of a push goes to the decremented address. -/
theorem stackStore_pushed (s : State) (v : Byte) : stackStore (pushed s) v = (pushed s).memWrite (s.sp - 1) v := by
  rw [stackStore, pushed, sp_setReg_sp]

/-! ## The statements -/

/-- Settles O29: the store at the decremented address with either outcome of the advance, and `STACK_LOW`. -/
theorem pushStoresBelowTheStack : Obligations.PushStoresBelowTheStack := by
  refine fun s opa a ha => ⟨?_, exec_push_of_sp_eq ha⟩
  rintro x m hsp rfl rfl
  have hexec := exec_push_of_sp_ne ha hsp
  rw [stackStore_pushed] at hexec
  exact ⟨next_advance_of_le hexec, next_advance_of_lt hexec⟩

/-- Settles O30: the load with either outcome of the advance, and `STACK_HIGH`. -/
theorem popLoadsFromTheStack : Obligations.PopLoadsFromTheStack := by
  rintro s opa a v base ha rfl rfl
  exact ⟨fun hbase => next_advance_of_le (exec_pop_of_base_ne ha hbase),
    fun hbase => next_advance_of_lt (exec_pop_of_base_ne ha hbase), exec_pop_of_base_eq ha⟩

/-- Settles O31: the return address is checked before the stack pointer. -/
theorem callPushesTheReturnAddress : Obligations.CallPushesTheReturnAddress := by
  refine fun s opa a ha => ⟨?_, exec_call_of_pc_gt ha, exec_call_of_sp_eq ha⟩
  rintro x hpc hsp rfl
  rw [exec_call_of_sp_ne ha hpc hsp, stackStore_pushed]
  rfl

end Sys2Proof.Proofs
end

section
/-!
PROOF. Instructions one after the other: each proof puts the statements of the single instructions together.
-/

namespace Sys2Proof.Proofs

open Sys2Proof.Machine

theorem set_get_same (x : RegFile) (r : Reg) : x.set r (x.get r) = x := by
  cases r <;> rfl

/-- A decrement that does not borrow does not give 255. -/
theorem sub_one_ne_max {b : Byte} (h : b ≠ 0x00) : b - 1 ≠ 0xFF := by
  intro hmax
  apply h
  rw [← BitVec.sub_add_cancel b 1, hmax]
  rfl

theorem sub_one_toNat_succ {b : Byte} (h : b ≠ 0x00) : (b - 1).toNat + 1 = b.toNat := by
  bv_omega

/-- The sum of the pc and a length, where it is a byte. -/
theorem pc_add_toNat {pc : Byte} (n : Nat) (h : pc.toNat + n ≤ 255) : (pc + BitVec.ofNat 8 n).toNat = pc.toNat + n := by
  rw [BitVec.toNat_add, BitVec.toNat_ofNat, Nat.add_mod_mod, Nat.mod_eq_of_lt (by omega)]

/-- A cell reads the byte just stored in it. -/
theorem memRead_write_same {s : State} {m : Memory} {a v : Byte} (h : s.mem = Memory.write m a.toNat v) :
    s.memRead a = v := by
  rw [State.memRead, h, Memory.read_write, if_pos rfl]

/-- POP after PUSH of the same register, at any pc: the byte popped is the one pushed, which for register 7 is the
decremented stack pointer itself (C10). -/
theorem exec_pop_after_push {s s1 : State} {opa : Byte} {a : Reg} (ha : Reg.ofByte opa = some a)
    (hsp : s.x.get .r7 ≠ 0x00) (hx : s1.x = s.x.set .r7 (s.x.get .r7 - 1))
    (hm : s1.mem = Memory.write s.mem (s.x.get .r7 - 1).toNat (s1.x.get a)) (hpc : s1.pc.toNat + 2 ≤ 255) :
    exec (.pop opa) s1 = .next { s1 with x := s.x, pc := s1.pc + 2 } := by
  have hsp1 : s1.x.get .r7 = s.x.get .r7 - 1 := by rw [hx, RegFile.get_set_same]
  have htop : s1.x.get a = s1.memRead (s1.x.get .r7) := by rw [hsp1, memRead_write_same hm]
  have hbase : s.x.get .r7 - 1 = if a = .r7 then s1.x.get a else s1.x.get .r7 := by
    by_cases h : a = .r7 <;> simp [h, hsp1]
  have hpop := (popLoadsFromTheStack s1 opa a _ _ ha htop hbase).1 (sub_one_ne_max hsp) hpc
  rwa [set_get_same, BitVec.sub_add_cancel, hx, RegFile.set_set_same, set_get_same] at hpop

/-- Settles O46: the push, then the pop in the state it leaves. -/
theorem pushThenPopRestores : Obligations.PushThenPopRestores := by
  intro s opa hopa hsp hpc
  obtain ⟨a, ha⟩ := exists_ofByte hopa
  have hpc1 : (s.pc + 2).toNat = s.pc.toNat + 2 := pc_add_toNat 2 (by omega)
  have hpush := ((pushStoresBelowTheStack s opa a ha).1 _ _ hsp rfl rfl).1 (by omega)
  refine ⟨_, _, hpush, exec_pop_after_push ha hsp rfl rfl (by simp only [hpc1]; omega), ?_⟩
  rw [BitVec.add_assoc]
  rfl

/-- Settles O47: RET reads the cell that CALL wrote, at the stack pointer that CALL left. -/
theorem callThenRetResumes : Obligations.CallThenRetResumes := by
  intro s opa hopa hsp hpc
  obtain ⟨a, ha⟩ := exists_ofByte hopa
  refine ⟨_, (callPushesTheReturnAddress s opa a ha).1 _ hpc hsp rfl, fun u husp hread => ?_⟩
  rw [RegFile.get_set_same] at husp hread
  have hret : u.memRead (u.x.get .r7) = s.pc + 2 := hread.trans (memRead_write_same rfl)
  have hne : u.x.get .r7 ≠ 0xFF := husp ▸ sub_one_ne_max hsp
  rw [(retPopsThePc u).1 hne, hret, husp, BitVec.sub_add_cancel]

/-- JEQ and JNE after the flags were set to a comparison of two registers. -/
theorem branch_after_compare {s : State} {opc va vb : Byte} {c : Reg} (hc : Reg.ofByte opc = some c)
    (hfl : s.fl = compareFlags va vb) (hpc : s.pc.toNat + 2 ≤ 255) :
    (va = vb →
      exec (.jeq opc) s = .next { s with pc := s.x.get c } ∧ exec (.jne opc) s = .next { s with pc := s.pc + 2 }) ∧
    (va ≠ vb →
      exec (.jeq opc) s = .next { s with pc := s.pc + 2 } ∧ exec (.jne opc) s = .next { s with pc := s.x.get c }) := by
  obtain ⟨htaken, hnot, -⟩ := (jeqJumpsIfEqual s opc).1 c hc
  obtain ⟨htaken', hnot', -⟩ := (jneJumpsIfNotEqual s opc).1 c hc
  refine ⟨fun heq => ?_, fun hne => ?_⟩
  · have hE : s.fl = 0b001 := hfl.trans (if_pos heq)
    exact ⟨htaken hE, hnot' hE hpc⟩
  · have hE : s.fl ≠ 0b001 := by
      rw [hfl, compareFlags, if_neg hne]
      split <;> decide
    exact ⟨hnot hE hpc, htaken' hE⟩

/-- Settles O48: the branches in the state that CMP leaves, whose registers are the old ones. -/
theorem compareThenBranch : Obligations.CompareThenBranch := by
  intro s opa opb opc a b c ha hb hc hpc
  have hpc1 : (s.pc + 3).toNat = s.pc.toNat + 3 := pc_add_toNat 3 (by omega)
  have hpc5 : s.pc + 3 + 2 = s.pc + 5 := by
    rw [BitVec.add_assoc]
    rfl
  have hcmp := ((cmpSetsTheFlags s opa opb _).1 a b ha hb (compareFlags_eq _ _)).1 (by omega)
  refine ⟨_, hcmp, rfl, ?_⟩
  rw [← hpc5]
  exact branch_after_compare hc rfl (by simp only [hpc1]; omega)

/-- Settles O49: PRN emits what LDI left in the register. -/
theorem loadThenPrintEmitsTheValue : Obligations.LoadThenPrintEmitsTheValue := by
  intro s opa imm hopa hpc
  obtain ⟨a, ha⟩ := exists_ofByte hopa
  have hpc1 : (s.pc + 3).toNat = s.pc.toNat + 3 := pc_add_toNat 3 (by omega)
  have hpc2 : (s.pc + 3 + 2).toNat = (s.pc + 3).toNat + 2 := pc_add_toNat 2 (by omega)
  have hldi := (ldiLoadsTheLiteral s opa imm).1 a ha (by omega)
  refine ⟨_, _, hldi, (prnEmitsTheRegister _ opa).1 a ha (by simp only [hpc1]; omega), ?_, ?_, rfl⟩
  · rw [RegFile.get_set_same]
  · simp only [hpc2, hpc1]

end Sys2Proof.Proofs
end

section
/-!
PROOF. Stored bytes as code (20_memory.md section 4): the fetch reads what a push has stored, in whatever place of an
instruction it stands.
-/

namespace Sys2Proof.Proofs

open Sys2Proof.Machine

section

variable {s t : State} {opa : Byte} {a : Reg} (ha : Reg.ofByte opa = some a) (hsp : s.x.get .r7 ≠ 0x00)
include ha hsp

theorem memRead_after_push (h : exec (.push opa) s = .next t) :
    t.memRead (s.x.get .r7 - 1) = (s.x.set .r7 (s.x.get .r7 - 1)).get a := by
  rw [exec_push_of_sp_ne ha hsp, stackStore_pushed] at h
  cases h
  exact memRead_write_same (advance_mem 2 _)

theorem memRead_after_call (hpc : s.pc.toNat + 2 ≤ 255) (h : exec (.call opa) s = .next t) :
    t.memRead (s.x.get .r7 - 1) = s.pc + 2 := by
  rw [exec_call_of_sp_ne ha hpc hsp, stackStore_pushed] at h
  cases h
  exact memRead_write_same rfl

end

theorem encode_length (i : Instr) : (encode i).length = i.kind.length := by
  cases i <;> rfl

theorem one_le_length (k : Kind) : 1 ≤ k.length := by
  cases k <;> decide

/-- The bytes of the fetched instruction are the ones in their places after the pc. -/
theorem encode_getElem?_of_fetchInstr {s : State} {i : Instr} {n : Nat} {a : Byte} (h : fetchInstr s = .ok i)
    (hn : n < i.kind.length) (ha : s.pc.toNat + n = a.toNat) : (encode i)[n]? = some (s.memRead a) := by
  have hlen : n < (encode i).length := (encode_length i).symm ▸ hn
  obtain ⟨-, hread⟩ := bytes_at_pc_iff.mp (fetchInstr_eq_ok_iff_encode.mp h) n hlen
  have hle : s.pc.toNat + n ≤ 255 := by
    have := a.isLt
    omega
  have haddr : s.pc + BitVec.ofNat 8 n = a := BitVec.eq_of_toNat_eq ((pc_add_toNat n hle).trans ha)
  rw [List.getElem?_eq_getElem hlen, ← hread, haddr]

/-- Settles O45: the cell reads the stored byte, and the fetch phase reads the cell as the opcode byte or as an operand
byte. -/
theorem storedByteIsFetched : Obligations.StoredByteIsFetched := by
  intro s t u opa a sp v ha hsp hspEq hexec hcell
  have hstored : t.memRead sp = v := by
    subst hspEq
    obtain ⟨h, rfl⟩ | ⟨h, hpc, rfl⟩ := hexec
    · exact memRead_after_push ha hsp h
    · exact memRead_after_call ha hsp hpc h
  obtain rfl : u.memRead sp = v := hcell.trans hstored
  refine ⟨rfl, ?_, ?_, ?_, ?_⟩
  · rintro hrun rfl hop
    exact step_of_decodeKind_none hrun ((decodeKind_eq_none_iff _).mpr hop)
  · rintro k hrun rfl hop hlen
    exact (missingOperandIsReported u k hrun hop).1 (by have := one_le_length k; omega)
  · rintro k hrun rfl hop hlen
    have hfetch : fetchInstr u = .ok (instrAtPc u k) := fetchInstr_eq_ok_iff.mpr (by simp [hop, hlen])
    obtain ⟨rest, hdec⟩ := decode_of_fetchInstr hfetch
    exact ⟨_, rest, hdec, instrOf_kind k _ _, step_of_fetchInstr hrun hfetch⟩
  · intro i rest n hrun hdec hn haddr
    have hfetch := fetchInstr_of_decode hdec
    exact ⟨encode_getElem?_of_fetchInstr hfetch hn haddr, step_of_fetchInstr hrun hfetch⟩

end Sys2Proof.Proofs
end

section
/-!
PROOF. Frames: which registers and which byte of memory an instruction writes, how it ends, and what the flag register
holds after it. Each is stated once for every instruction.
-/

namespace Sys2Proof.Proofs

open Sys2Proof.Machine

/-! ## The registers (R143, R160) -/

/-- The registers an instruction can write. -/
def Writes : Instr → Reg → Prop
  | .hlt, _ => False
  | .ldi opa _, r => Reg.ofByte opa = some r
  | .prn _, _ => False
  | .mul opa _, r => Reg.ofByte opa = some r
  | .add opa _, r => Reg.ofByte opa = some r
  | .cmp _ _, _ => False
  | .push _, r => r = .r7
  | .pop opa, r => Reg.ofByte opa = some r ∨ r = .r7
  | .call _, r => r = .r7
  | .ret, r => r = .r7
  | .jmp _, _ => False
  | .jeq _, _ => False
  | .jne _, _ => False

@[simp] theorem jumpIf_x (taken : Bool) (a : Reg) (s : State) : (jumpIf taken a s).x = s.x := by
  cases taken <;> simp [jumpIf]

@[simp] theorem jumpIf_mem (taken : Bool) (a : Reg) (s : State) : (jumpIf taken a s).mem = s.mem := by
  cases taken <;> simp [jumpIf]

@[simp] theorem pushed_x (s : State) : (pushed s).x = s.x.set .r7 (s.sp - 1) := rfl

/-- The destination named by an operand byte is the one register that a write of it changes. -/
theorem get_set_of_ofByte_ne {opa : Byte} {a r : Reg} (ha : Reg.ofByte opa = some a) (hr : Reg.ofByte opa ≠ some r)
    (x : RegFile) (v : Byte) : (x.set a v).get r = x.get r :=
  RegFile.get_set_other x v fun hra => hr (hra ▸ ha)

/-- An instruction leaves every register it does not write. -/
theorem exec_x_frame {i : Instr} {s t : State} {r : Reg} (h : exec i s = .next t) (hr : ¬ Writes i r) :
    t.x.get r = s.x.get r := by
  cases i with
  | hlt => rw [exec_hlt_cases h]; rfl
  | ldi opa imm =>
    obtain ⟨-, rfl⟩ | ⟨a, ha, rfl⟩ := exec_ldi_cases h
    · rfl
    · simp [get_set_of_ofByte_ne ha hr]
  | prn opa => obtain ⟨-, rfl⟩ | ⟨a, -, rfl⟩ := exec_prn_cases h <;> simp
  | mul opa opb =>
    obtain ⟨b, -, -, rfl⟩ | ⟨a, b, ha, -, rfl⟩ := exec_mul_cases h
    · rfl
    · simp [get_set_of_ofByte_ne ha hr]
  | add opa opb =>
    obtain ⟨b, -, -, rfl⟩ | ⟨a, b, ha, -, rfl⟩ := exec_add_cases h
    · rfl
    · simp [get_set_of_ofByte_ne ha hr]
  | cmp opa opb => obtain ⟨b, -, -, rfl⟩ | ⟨a, b, -, -, rfl⟩ := exec_cmp_cases h <;> simp
  | push opa =>
    obtain ⟨-, rfl⟩ | ⟨-, rfl⟩ | ⟨a, -, -, rfl⟩ := exec_push_cases h
    · rfl
    · rfl
    · simp [RegFile.get_set_other _ _ hr]
  | pop opa =>
    obtain ⟨hopa, hr7⟩ := not_or.mp hr
    obtain ⟨-, rfl⟩ | ⟨a, ha, ⟨-, rfl⟩ | ⟨-, rfl⟩⟩ := exec_pop_cases h
    · rfl
    · rfl
    · simp [RegFile.get_set_other _ _ hr7, get_set_of_ofByte_ne ha hopa]
  | call opa =>
    obtain ⟨-, rfl⟩ | ⟨-, rfl⟩ | ⟨-, -, rfl⟩ | ⟨a, -, -, -, rfl⟩ := exec_call_cases h
    · rfl
    · rfl
    · rfl
    · simp [RegFile.get_set_other _ _ hr]
  | ret =>
    obtain ⟨-, rfl⟩ | ⟨-, rfl⟩ := exec_ret_cases h
    · rfl
    · simp [RegFile.get_set_other _ _ hr]
  | jmp opa => obtain ⟨-, rfl⟩ | ⟨a, -, rfl⟩ := exec_jmp_cases h <;> simp
  | jeq opa => obtain ⟨-, rfl⟩ | ⟨a, -, rfl⟩ := exec_jeq_cases h <;> simp
  | jne opa => obtain ⟨-, rfl⟩ | ⟨a, -, rfl⟩ := exec_jne_cases h <;> simp

/-! ## The memory (R52, R160) -/

/-- One byte was pushed: the stack pointer, not at 0, is decremented, and memory is written there and nowhere else. -/
def PushedByte (s t : State) : Prop :=
  s.sp ≠ 0x00 ∧ t.x = s.x.set .r7 (s.sp - 1) ∧ ∃ v, t.mem = Memory.write s.mem (s.sp - 1).toNat v

/-- An instruction leaves the memory, or is PUSH or CALL and has pushed a byte. -/
theorem exec_mem_cases {i : Instr} {s t : State} (h : exec i s = .next t) :
    t.mem = s.mem ∨ ((i.kind = .push ∨ i.kind = .call) ∧ PushedByte s t) := by
  cases i with
  | hlt => exact .inl (by rw [exec_hlt_cases h]; rfl)
  | ldi opa imm => obtain ⟨-, rfl⟩ | ⟨a, -, rfl⟩ := exec_ldi_cases h <;> simp
  | prn opa => obtain ⟨-, rfl⟩ | ⟨a, -, rfl⟩ := exec_prn_cases h <;> simp
  | mul opa opb => obtain ⟨b, -, -, rfl⟩ | ⟨a, b, -, -, rfl⟩ := exec_mul_cases h <;> simp
  | add opa opb => obtain ⟨b, -, -, rfl⟩ | ⟨a, b, -, -, rfl⟩ := exec_add_cases h <;> simp
  | cmp opa opb => obtain ⟨b, -, -, rfl⟩ | ⟨a, b, -, -, rfl⟩ := exec_cmp_cases h <;> simp
  | push opa =>
    obtain ⟨-, rfl⟩ | ⟨-, rfl⟩ | ⟨a, -, hsp, rfl⟩ := exec_push_cases h
    · exact .inl rfl
    · exact .inl rfl
    · exact .inr ⟨.inl rfl, hsp, by simp, _, by rw [stackStore_pushed, advance_mem]; rfl⟩
  | pop opa => obtain ⟨-, rfl⟩ | ⟨a, -, ⟨-, rfl⟩ | ⟨-, rfl⟩⟩ := exec_pop_cases h <;> simp
  | call opa =>
    obtain ⟨-, rfl⟩ | ⟨-, rfl⟩ | ⟨-, -, rfl⟩ | ⟨a, -, -, hsp, rfl⟩ := exec_call_cases h
    · exact .inl rfl
    · exact .inl rfl
    · exact .inl rfl
    · exact .inr ⟨.inr rfl, hsp, rfl, _, by rw [stackStore_pushed]; rfl⟩
  | ret => obtain ⟨-, rfl⟩ | ⟨-, rfl⟩ := exec_ret_cases h <;> simp
  | jmp opa => obtain ⟨-, rfl⟩ | ⟨a, -, rfl⟩ := exec_jmp_cases h <;> simp
  | jeq opa => obtain ⟨-, rfl⟩ | ⟨a, -, rfl⟩ := exec_jeq_cases h <;> simp
  | jne opa => obtain ⟨-, rfl⟩ | ⟨a, -, rfl⟩ := exec_jne_cases h <;> simp

/-- A pushed byte leaves every cell but the one at the decremented stack pointer. -/
theorem PushedByte.memRead_other {s t : State} (h : PushedByte s t) {a : Byte} (ha : a ≠ s.sp - 1) :
    t.memRead a = s.memRead a := by
  obtain ⟨-, -, v, hv⟩ := h
  rw [State.memRead, hv, Memory.read_write, if_neg (mt BitVec.eq_of_toNat_eq ha)]
  rfl

/-- An instruction that is neither PUSH nor CALL leaves every byte of memory. -/
theorem exec_memRead_frame {i : Instr} {s t : State} (h : exec i s = .next t) (hpush : i.kind ≠ .push)
    (hcall : i.kind ≠ .call) (a : Byte) : t.memRead a = s.memRead a := by
  obtain hm | ⟨hk, -⟩ := exec_mem_cases h
  · rw [State.memRead, hm]
    rfl
  · exact absurd hk (not_or.mpr ⟨hpush, hcall⟩)

/-! ## The end of an instruction (R100, R106, R107) -/

/-- The ways an instruction ends: a fault before any change, the sequential advance after its effect, a pc of its own,
or the halt. -/
inductive Ends (i : Instr) (s : State) : State → Prop
  | fault (sub : AddrSub) (addr : Int) (h : sub ≠ .nextPc) : Ends i s (raise (.address sub s.pc addr) s)
  | advance (len : Nat) (u : State) (hpc : u.pc = s.pc) (hrun : u.run = s.run) : Ends i s (advance len u)
  | transfer (t : State) (hrun : t.run = s.run) : Ends i s t
  | halt (hi : i.kind = .hlt) : Ends i s (s.setPc (haltPc s.pc)).halt

theorem Ends.of_jumpIf (i : Instr) (s : State) (taken : Bool) (a : Reg) : Ends i s (jumpIf taken a s) := by
  cases taken
  · exact .advance 2 s rfl rfl
  · exact .transfer _ rfl

theorem exec_ends {i : Instr} {s t : State} (h : exec i s = .next t) : Ends i s t := by
  have bad {b : Byte} : Ends i s (raise (.address .regIndex s.pc b.toNat) s) := .fault _ _ nofun
  cases i with
  | hlt => exact exec_hlt_cases h ▸ .halt rfl
  | ldi opa imm =>
    obtain ⟨-, rfl⟩ | ⟨a, -, rfl⟩ := exec_ldi_cases h
    exacts [bad, .advance 3 _ rfl rfl]
  | prn opa =>
    obtain ⟨-, rfl⟩ | ⟨a, -, rfl⟩ := exec_prn_cases h
    exacts [bad, .advance 2 _ rfl rfl]
  | mul opa opb =>
    obtain ⟨b, -, -, rfl⟩ | ⟨a, b, -, -, rfl⟩ := exec_mul_cases h
    exacts [bad, .advance 3 _ rfl rfl]
  | add opa opb =>
    obtain ⟨b, -, -, rfl⟩ | ⟨a, b, -, -, rfl⟩ := exec_add_cases h
    exacts [bad, .advance 3 _ rfl rfl]
  | cmp opa opb =>
    obtain ⟨b, -, -, rfl⟩ | ⟨a, b, -, -, rfl⟩ := exec_cmp_cases h
    exacts [bad, .advance 3 _ rfl rfl]
  | push opa =>
    obtain ⟨-, rfl⟩ | ⟨-, rfl⟩ | ⟨a, -, -, rfl⟩ := exec_push_cases h
    exacts [bad, .fault _ _ nofun, .advance 2 _ rfl rfl]
  | pop opa =>
    obtain ⟨-, rfl⟩ | ⟨a, -, ⟨-, rfl⟩ | ⟨-, rfl⟩⟩ := exec_pop_cases h
    exacts [bad, .fault _ _ nofun, .advance 2 _ rfl rfl]
  | call opa =>
    obtain ⟨-, rfl⟩ | ⟨-, rfl⟩ | ⟨-, -, rfl⟩ | ⟨a, -, -, -, rfl⟩ := exec_call_cases h
    exacts [bad, .fault _ _ nofun, .fault _ _ nofun, .transfer _ rfl]
  | ret =>
    obtain ⟨-, rfl⟩ | ⟨-, rfl⟩ := exec_ret_cases h
    exacts [.fault _ _ nofun, .transfer _ rfl]
  | jmp opa =>
    obtain ⟨-, rfl⟩ | ⟨a, -, rfl⟩ := exec_jmp_cases h
    exacts [bad, .of_jumpIf _ _ _ a]
  | jeq opa =>
    obtain ⟨-, rfl⟩ | ⟨a, -, rfl⟩ := exec_jeq_cases h
    exacts [bad, .of_jumpIf _ _ _ a]
  | jne opa =>
    obtain ⟨-, rfl⟩ | ⟨a, -, rfl⟩ := exec_jne_cases h
    exacts [bad, .of_jumpIf _ _ _ a]

/-- An instruction other than HLT changes the run state by a fault only. -/
theorem exec_run_frame {i : Instr} {s t : State} (h : exec i s = .next t) (hi : i.kind ≠ .hlt) :
    t.run = s.run ∨ ∃ c, t.run = .faulted c := by
  cases exec_ends h with
  | fault sub addr => exact .inr ⟨_, rfl⟩
  | advance len u hpc hrun =>
    obtain ⟨-, ha⟩ | ⟨-, ha⟩ := advance_cases len u
    · exact .inl (by rw [ha, setPc_run, hrun])
    · exact .inr ⟨_, by rw [ha, raise_run]⟩
  | transfer t hrun => exact .inl hrun
  | halt hhlt => exact absurd hhlt hi

/-! ## The flag register (R30, R31) -/

/-- An instruction leaves the flag register or leaves a one-hot value in it. -/
theorem exec_fl_cases {i : Instr} {s t : State} (h : exec i s = .next t) : t.fl = s.fl ∨ flagOneHot t.fl = true := by
  by_cases hk : i.kind = .cmp
  · cases i <;> cases hk
    obtain ⟨b, -, -, rfl⟩ | ⟨a, b, -, -, rfl⟩ := exec_cmp_cases h
    · exact .inl rfl
    · exact .inr (by simp [compareFlags_oneHot])
  · exact .inl ((exec_fl_and_out h).1 hk)

theorem step_fl_cases {s t : State} (h : step s = .next t) : t.fl = s.fl ∨ flagOneHot t.fl = true := by
  obtain ⟨-, ⟨r, -, rfl⟩ | ⟨i, -, he⟩⟩ := step_eq_next h
  · exact .inl rfl
  · exact exec_fl_cases he

/-- Settles O42: with two register operands CMP writes one of the three values, and no instruction writes another. -/
theorem flagsOneHotFromTheFirstCmp : Obligations.FlagsOneHotFromTheFirstCmp := by
  refine ⟨fun s t opa opb ha hb h => ?_, fun s t hs h => ?_⟩
  · obtain ⟨a, ha⟩ := exists_ofByte ha
    obtain ⟨b, hb⟩ := exists_ofByte hb
    rw [exec_cmp_of_some ha hb] at h
    cases h
    simp [compareFlags_oneHot]
  · obtain hfl | hone := step_fl_cases h
    · rw [hfl, hs]
    · exact hone

/-! ## The frames of the instructions -/

/-- Settles O37, by the frames of any instruction: none of the three is CMP, PRN, PUSH, CALL or HLT. -/
theorem frameOfRegisterResults : Obligations.FrameOfRegisterResults := by
  intro i s t opa opb hi h
  obtain ⟨hfl, hout⟩ := exec_fl_and_out h
  obtain rfl | rfl | rfl := hi <;>
    exact ⟨fun r hr => exec_x_frame h hr, hfl nofun, hout nofun, exec_memRead_frame h nofun nofun,
      exec_run_frame h nofun⟩

/-- Settles O38: none of the six writes a register, and none of them is PUSH or CALL. -/
theorem frameOfRegisterReaders : Obligations.FrameOfRegisterReaders := by
  intro i s t hk h
  obtain ⟨hfl, hout⟩ := exec_fl_and_out h
  cases i with
  | hlt =>
    have hrun : t.run = .halted := by rw [exec_hlt_cases h, halt_run]
    exact ⟨fun r => exec_x_frame h id, exec_memRead_frame h nofun nofun, hfl, hout, .inr (.inl ⟨rfl, hrun⟩)⟩
  | prn | cmp | jmp | jeq | jne =>
    exact ⟨fun r => exec_x_frame h id, exec_memRead_frame h nofun nofun, hfl, hout,
      (exec_run_frame h nofun).imp_right .inr⟩
  | ldi | mul | add | push | pop | call | ret => simp [Instr.kind] at hk

/-- Settles O39: POP writes its destination and register 7, RET register 7. -/
theorem frameOfPops : Obligations.FrameOfPops := by
  intro i s t opa hi h
  obtain ⟨hfl, hout⟩ := exec_fl_and_out h
  have hx : ∀ r, r ≠ .r7 → (i = .pop opa → Reg.ofByte opa ≠ some r) → t.x.get r = s.x.get r := by
    intro r hr7 hopa
    obtain rfl | rfl := hi
    · exact exec_x_frame h (not_or.mpr ⟨hopa rfl, hr7⟩)
    · exact exec_x_frame h hr7
  obtain rfl | rfl := hi <;>
    exact ⟨hx, hfl nofun, hout nofun, exec_memRead_frame h nofun nofun, exec_run_frame h nofun⟩

/-- A PUSH or CALL that is faulted before the store leaves the memory. -/
theorem push_call_mem_of_fault {i : Instr} {s t : State} {opa : Byte} (hi : i = .push opa ∨ i = .call opa)
    (h : exec i s = .next t)
    (hfault : (∃ c, stackDecrement s = .error c) ∨ 7 < opa.toNat ∨ (i = .call opa ∧ 255 < s.pc.toNat + 2)) :
    t.mem = s.mem := by
  obtain ⟨c, hc⟩ | hopa | ⟨rfl, hpc⟩ := hfault
  · obtain hm | ⟨-, hsp, -⟩ := exec_mem_cases h
    · exact hm
    · cases hc.symm.trans (stackDecrement_of_ne hsp)
  · have hbad : exec i s = .next (raise (.address .regIndex s.pc opa.toNat) s) := by
      obtain rfl | rfl := hi <;> exact withReg_of_gt hopa s _
    cases h.symm.trans hbad
    rfl
  · obtain ⟨-, rfl⟩ | ⟨-, rfl⟩ | ⟨hle, -⟩ | ⟨a, -, hle, -⟩ := exec_call_cases h
    · rfl
    · rfl
    · omega
    · omega

/-- Settles O40: the two write register 7 only, and memory at the decremented stack pointer only. -/
theorem frameOfPushes : Obligations.FrameOfPushes := by
  intro i s t opa hi h
  obtain ⟨hfl, hout⟩ := exec_fl_and_out h
  have hother : ∀ s1, stackDecrement s = .ok s1 → ∀ a : Byte, a ≠ s1.sp → t.memRead a = s.memRead a := by
    intro s1 hs1 a ha
    obtain hm | ⟨-, hpushed⟩ := exec_mem_cases h
    · rw [State.memRead, hm]
      rfl
    · cases hs1.symm.trans (stackDecrement_of_ne hpushed.1)
      exact hpushed.memRead_other (by simpa [pushed] using ha)
  have hfault := fun hf (a : Byte) => congrArg (Memory.read · a.toNat) (push_call_mem_of_fault hi h hf)
  obtain rfl | rfl := hi <;>
    exact ⟨fun r hr => exec_x_frame h hr, hfl nofun, hout nofun, hother, hfault, exec_run_frame h nofun⟩

/-- Settles O44: a byte that changes was pushed, and the opcode byte is that of the instruction that pushed it. -/
theorem memoryWrittenByPushAndCallOnly : Obligations.MemoryWrittenByPushAndCallOnly := by
  intro s t a h hne
  obtain ⟨-, ⟨r, -, rfl⟩ | ⟨i, hi, he⟩⟩ := step_eq_next h
  · exact absurd rfl hne
  obtain hm | ⟨hk, hpushed⟩ := exec_mem_cases he
  · exact absurd (congrArg (Memory.read · a.toNat) hm) hne
  have haddr : a = s.sp - 1 := by
    by_contra ha
    exact hne (hpushed.memRead_other ha)
  obtain ⟨hsp, hx, -⟩ := hpushed
  obtain ⟨hop, -⟩ := fetchInstr_eq_ok_iff.mp hi
  refine ⟨hk.imp (fun hk => by rw [hop, hk]; rfl) (fun hk => by rw [hop, hk]; rfl), ?_, ?_⟩
  · rw [haddr]
    exact sub_one_toNat_succ hsp
  · rw [hx, haddr, RegFile.get_set_same]

end Sys2Proof.Proofs
end

section
/-!
PROOF. The fault of a step (60_exceptions.md): that it is precise, and that it is the one the fault matrix lists first.
-/

namespace Sys2Proof.Proofs

open Sys2Proof.Machine

/-! ## Precise faults (R198) -/

/-- If `t` is faulted, its record and its pc have the pc of `s`, and a fault other than `NEXT_PC` changed nothing but
the run state. -/
def Precise (s t : State) : Prop :=
  ∀ r, t.run = .faulted r → r.atPc = s.pc ∧ t.pc = s.pc ∧ (r.isNextPc = false → t = raise r s)

theorem precise_raise {s : State} {r : FaultRec} (h : r.atPc = s.pc) : Precise s (raise r s) := by
  rintro _ ⟨⟩
  exact ⟨h, rfl, fun _ => rfl⟩

theorem precise_of_not_faulted {s t : State} (h : ∀ r, t.run ≠ .faulted r) : Precise s t :=
  fun r hr => absurd hr (h r)

/-- An instruction's fault is precise: only the fault of the advance comes after an effect. -/
theorem exec_precise {i : Instr} {s t : State} (hrun : s.run = .running) (h : exec i s = .next t) : Precise s t := by
  cases exec_ends h with
  | fault sub addr => exact precise_raise rfl
  | advance len u hpc hu =>
    obtain ⟨-, ha⟩ | ⟨-, ha⟩ := advance_cases len u
    · exact precise_of_not_faulted (by simp [ha, hu, hrun])
    · rw [ha, hpc]
      rintro _ ⟨⟩
      exact ⟨rfl, hpc, nofun⟩
  | transfer t ht => exact precise_of_not_faulted (by simp [ht, hrun])
  | halt => exact precise_of_not_faulted nofun

theorem fetchInstr_error_atPc {s : State} {r : FaultRec} (h : fetchInstr s = .error r) : r.atPc = s.pc := by
  obtain ⟨i, hi, -⟩ | ⟨-, hu⟩ | ⟨k, n, -, -, -, -, ho⟩ := fetchInstr_cases s
  · cases h.symm.trans hi
  · cases h.symm.trans hu
    rfl
  · cases h.symm.trans ho
    rfl

theorem step_precise {s t : State} (h : step s = .next t) : Precise s t := by
  obtain ⟨hrun, ⟨r, hf, rfl⟩ | ⟨i, -, he⟩⟩ := step_eq_next h
  · exact precise_raise (fetchInstr_error_atPc hf)
  · exact exec_precise hrun he

/-- Settles O19: the faults of the fetch phase and of the execute phase are precise. -/
theorem faultsArePrecise : Obligations.FaultsArePrecise := fun _ _ r h ht => step_precise h r ht

/-- Settles O20: a step reports an unrecognized opcode or an address fault. -/
theorem arithmeticFaultNeverOccurs : Obligations.ArithmeticFaultNeverOccurs := by
  intro s t p va vb h ht
  obtain ⟨-, hr⟩ | ⟨sub, addr, hr⟩ := step_fault_cases h ht
  · cases hr
  · cases hr

/-! ## The fault matrix (R194, R197), in three parts -/

/-- The lines of the missing operand byte. -/
def fetchLines (k : Kind) (s : State) : List (Bool × FaultRec) := (faultMatrix k s).take 2

/-- The lines of the register indices. -/
def indexLines (k : Kind) (s : State) : List (Bool × FaultRec) := ((faultMatrix k s).drop 2).take 2

/-- The lines of the return address, the stack and the next pc. -/
def executeLines (k : Kind) (s : State) : List (Bool × FaultRec) := (faultMatrix k s).drop 4

theorem firstFault_append (l l' : List (Bool × FaultRec)) :
    firstFault (l ++ l') = (firstFault l).or (firstFault l') := by
  induction l with
  | nil => rfl
  | cons line l ih =>
    rw [List.cons_append, firstFault, firstFault, ih]
    cases line.1 <;> rfl

theorem firstFault_faultMatrix (k : Kind) (s : State) :
    firstFault (faultMatrix k s) =
      ((firstFault (fetchLines k s)).or (firstFault (indexLines k s))).or (firstFault (executeLines k s)) := by
  rw [← firstFault_append, ← firstFault_append]
  rfl

theorem firstFault_fetchLines (k : Kind) (s : State) :
    firstFault (fetchLines k s) =
      if 256 < s.pc.toNat + k.length then some (.address .operandFetch s.pc 256) else none := by
  have hpc := s.pc.isLt
  cases k with
  | hlt | ret =>
    have hmiss : ¬ 256 < s.pc.toNat + 1 := by omega
    simp [fetchLines, faultMatrix, firstFault, Kind.length, hmiss]
  | prn | push | pop | call | jmp | jeq | jne =>
    have hmiss : 256 < s.pc.toNat + 2 ↔ s.pc.toNat = 255 := by omega
    simp [fetchLines, faultMatrix, firstFault, Kind.length, hmiss]
  | ldi | mul | add | cmp =>
    have hmiss : 256 < s.pc.toNat + 3 ↔ 254 ≤ s.pc.toNat := by omega
    simp [fetchLines, faultMatrix, firstFault, Kind.length, hmiss]

/-- The index lines report the first byte above 7 among the register operands of the instruction at the pc. -/
theorem firstFault_indexLines (k : Kind) (s : State) :
    firstFault (indexLines k s) =
      ((instrAtPc s k).registerOperands.find? fun c => decide (7 < c.toNat)).map
        fun b => .address .regIndex s.pc b.toNat := by
  cases k with
  | hlt | ret => rfl
  | ldi | prn | push | pop | call | jmp | jeq | jne =>
    by_cases ha : 7 < s.opa.toNat <;>
      simp [indexLines, faultMatrix, firstFault, bIsRegister, Kind.length, instrOf, Kind.shape,
        Instr.registerOperands, ha]
  | mul | add | cmp =>
    by_cases ha : 7 < s.opa.toNat <;> by_cases hb : 7 < s.opb.toNat <;>
      simp [indexLines, faultMatrix, firstFault, bIsRegister, Kind.length, instrOf, Kind.shape,
        Instr.registerOperands, ha, hb]

/-! ## The execute phase on existing registers -/

/-- The run state that the fault reported leaves, if any. -/
def runAfter (fault : Option FaultRec) (run : RunState) : RunState :=
  match fault with
  | some r => .faulted r
  | none => run

/-- The fault of the sequential advance of an instruction whose bytes lie below address 256. -/
def nextPcFault (len : Nat) (s : State) : Option FaultRec :=
  if s.pc.toNat + len = 256 then some (.address .nextPc s.pc 256) else none

theorem advance_run {len : Nat} {s u : State} (h : s.pc.toNat + len ≤ 256) (hpc : u.pc = s.pc) (hrun : u.run = s.run) :
    (advance len u).run = runAfter (nextPcFault len s) s.run := by
  obtain ⟨hle, ha⟩ | ⟨hlt, ha⟩ := advance_cases len u
  · rw [hpc] at hle
    rw [ha, nextPcFault, if_neg (by omega)]
    exact hrun
  · rw [hpc] at hlt
    have h256 : (s.pc.toNat : Int) + len = 256 := by omega
    rw [ha, nextPcFault, if_pos (by omega), raise_run, hpc, h256]
    rfl

theorem jumpIf_run {taken : Bool} {a : Reg} {s : State} (h : s.pc.toNat + 2 ≤ 256) :
    (jumpIf taken a s).run = runAfter (if taken then none else nextPcFault 2 s) s.run := by
  cases taken
  · exact advance_run h rfl rfl
  · rfl

/-- The operand byte 7 is the one that names the stack pointer. -/
theorem eq_seven_iff {opa : Byte} {a : Reg} (ha : Reg.ofByte opa = some a) : opa = 7 ↔ a = .r7 := by
  rw [← toByte_of_ofByte ha]
  cases a <;> decide

theorem popBase_eq {s : State} {a : Reg} (ha : Reg.ofByte s.opa = some a) :
    popBase a s = if s.opa = 7 then s.memRead (s.x.get .r7) else s.x.get .r7 := by
  simp only [eq_seven_iff ha]
  rfl

/-- The kinds whose execute phase on existing registers can fail in the advance only. -/
theorem firstFault_executeLines_of_advance {k : Kind} (hk : k ∈ [Kind.ldi, .prn, .mul, .add, .cmp]) (s : State) :
    firstFault (executeLines k s) = nextPcFault k.length s := by
  simp only [List.mem_cons, List.not_mem_nil, or_false] at hk
  obtain rfl | rfl | rfl | rfl | rfl := hk <;>
    simp [executeLines, faultMatrix, firstFault, endsInAdvance, Kind.length, nextPcFault]

theorem firstFault_executeLines_push (s : State) :
    firstFault (executeLines .push s) =
      if s.sp = 0x00 then some (.address .stackLow s.pc (-1)) else nextPcFault 2 s := by
  simp [executeLines, faultMatrix, firstFault, endsInAdvance, Kind.length, nextPcFault, State.sp, State.reg, Reg.sp]

theorem firstFault_executeLines_pop {s : State} {a : Reg} (ha : Reg.ofByte s.opa = some a) :
    firstFault (executeLines .pop s) =
      if popBase a s = 0xFF then some (.address .stackHigh s.pc 256) else nextPcFault 2 s := by
  rw [popBase_eq ha]
  simp [executeLines, faultMatrix, firstFault, endsInAdvance, Kind.length, nextPcFault]

theorem firstFault_executeLines_call (s : State) :
    firstFault (executeLines .call s) =
      if s.pc.toNat = 254 then some (.address .returnAddr s.pc 256)
      else if s.sp = 0x00 then some (.address .stackLow s.pc (-1)) else none := by
  simp [executeLines, faultMatrix, firstFault, endsInAdvance]
  rfl

theorem firstFault_executeLines_ret (s : State) :
    firstFault (executeLines .ret s) = if s.sp = 0xFF then some (.address .stackHigh s.pc 256) else none := by
  simp [executeLines, faultMatrix, firstFault, endsInAdvance]
  rfl

theorem firstFault_executeLines_jeq (s : State) :
    firstFault (executeLines .jeq s) = if flagIsEqual s.fl then none else nextPcFault 2 s := by
  by_cases h : s.fl = 1#3 <;>
    simp [executeLines, faultMatrix, firstFault, endsInAdvance, Kind.length, nextPcFault, flagIsEqual, flagE, h]

theorem firstFault_executeLines_jne (s : State) :
    firstFault (executeLines .jne s) = if !flagIsEqual s.fl then none else nextPcFault 2 s := by
  by_cases h : s.fl = 1#3 <;>
    simp [executeLines, faultMatrix, firstFault, endsInAdvance, Kind.length, nextPcFault, flagIsEqual, flagE, h]

/-- With every register operand an index, an instruction ends in the first fault of the execute lines. -/
theorem exec_run_of_indices {k : Kind} {s t : State} (hlen : s.pc.toNat + k.length ≤ 256)
    (hidx : ∀ b ∈ (instrAtPc s k).registerOperands, Reg.ofByte b ≠ none) (h : exec (instrAtPc s k) s = .next t) :
    t.run = runAfter (firstFault (executeLines k s)) (if k = .hlt then .halted else s.run) := by
  have hfirst {b : Byte} {l : List Byte} (hl : (instrAtPc s k).registerOperands = b :: l) : Reg.ofByte b ≠ none :=
    hidx b (hl ▸ .head l)
  have hboth {b c : Byte} (hl : (instrAtPc s k).registerOperands = [b, c]) :
      ∀ d, d = b ∨ d = c → Reg.ofByte d ≠ none :=
    fun d hd => hidx d (hl ▸ by simpa using hd)
  cases k with
  | hlt =>
    rw [exec_hlt_cases h]
    rfl
  | ldi =>
    rw [firstFault_executeLines_of_advance (by decide)]
    obtain ⟨hn, -⟩ | ⟨a, -, rfl⟩ := exec_ldi_cases h
    · exact absurd hn (hfirst rfl)
    · exact advance_run hlen rfl rfl
  | prn =>
    rw [firstFault_executeLines_of_advance (by decide)]
    obtain ⟨hn, -⟩ | ⟨a, -, rfl⟩ := exec_prn_cases h
    · exact absurd hn (hfirst rfl)
    · exact advance_run hlen rfl rfl
  | mul =>
    rw [firstFault_executeLines_of_advance (by decide)]
    obtain ⟨b, hb, hn, -⟩ | ⟨a, b, -, -, rfl⟩ := exec_mul_cases h
    · exact absurd hn (hboth rfl b hb)
    · exact advance_run hlen rfl rfl
  | add =>
    rw [firstFault_executeLines_of_advance (by decide)]
    obtain ⟨b, hb, hn, -⟩ | ⟨a, b, -, -, rfl⟩ := exec_add_cases h
    · exact absurd hn (hboth rfl b hb)
    · exact advance_run hlen rfl rfl
  | cmp =>
    rw [firstFault_executeLines_of_advance (by decide)]
    obtain ⟨b, hb, hn, -⟩ | ⟨a, b, -, -, rfl⟩ := exec_cmp_cases h
    · exact absurd hn (hboth rfl b hb)
    · exact advance_run hlen rfl rfl
  | push =>
    rw [firstFault_executeLines_push]
    obtain ⟨hn, -⟩ | ⟨hsp, rfl⟩ | ⟨a, -, hsp, rfl⟩ := exec_push_cases h
    · exact absurd hn (hfirst rfl)
    · rw [if_pos hsp]
      rfl
    · rw [if_neg hsp]
      exact advance_run hlen rfl rfl
  | pop =>
    obtain ⟨hn, -⟩ | ⟨a, ha, ⟨hbase, rfl⟩ | ⟨hbase, rfl⟩⟩ := exec_pop_cases h
    · exact absurd hn (hfirst rfl)
    · rw [firstFault_executeLines_pop ha, if_pos hbase]
      rfl
    · rw [firstFault_executeLines_pop ha, if_neg hbase]
      exact advance_run hlen rfl rfl
  | call =>
    have hle : s.pc.toNat + 2 ≤ 256 := hlen
    rw [firstFault_executeLines_call]
    obtain ⟨hn, -⟩ | ⟨hpc, rfl⟩ | ⟨hpc, hsp, rfl⟩ | ⟨a, -, hpc, hsp, rfl⟩ := exec_call_cases h
    · exact absurd hn (hfirst rfl)
    · have h254 : s.pc.toNat = 254 := by omega
      rw [if_pos h254, h254]
      rfl
    · rw [if_neg (by omega), if_pos hsp]
      rfl
    · rw [if_neg (by omega), if_neg hsp]
      rfl
  | ret =>
    rw [firstFault_executeLines_ret]
    obtain ⟨hsp, rfl⟩ | ⟨hsp, rfl⟩ := exec_ret_cases h
    · rw [if_pos hsp]
      rfl
    · rw [if_neg hsp]
      rfl
  | jmp =>
    obtain ⟨hn, -⟩ | ⟨a, -, rfl⟩ := exec_jmp_cases h
    · exact absurd hn (hfirst rfl)
    · rfl
  | jeq =>
    rw [firstFault_executeLines_jeq]
    obtain ⟨hn, -⟩ | ⟨a, -, rfl⟩ := exec_jeq_cases h
    · exact absurd hn (hfirst rfl)
    · exact jumpIf_run hlen
  | jne =>
    rw [firstFault_executeLines_jne]
    obtain ⟨hn, -⟩ | ⟨a, -, rfl⟩ := exec_jne_cases h
    · exact absurd hn (hfirst rfl)
    · exact jumpIf_run hlen

/-! ## The fault a step reports -/

/-- A step ends in the first fault of the whole matrix. -/
theorem step_run {s t : State} (h : step s = .next t) :
    t.run = runAfter (stepFault s) (if s.memRead s.pc = Config.OP.hlt then .halted else .running) := by
  have hrun := running_of_step h
  cases hk : decodeKind (s.memRead s.pc) with
  | none =>
    rw [step_of_decodeKind_none hrun hk] at h
    cases h
    simp [stepFault, hk, runAfter]
  | some k =>
    have hop := (decodeKind_eq_some_iff _ _).mp hk
    have hhlt : s.memRead s.pc = Config.OP.hlt ↔ k = .hlt := by
      rw [hop]
      cases k <;> decide
    rw [step_of_value hrun hop] at h
    simp only [stepFault, hk, firstFault_faultMatrix, firstFault_fetchLines, firstFault_indexLines, hhlt]
    by_cases hlen : 256 < s.pc.toNat + k.length
    · rw [if_pos hlen] at h
      cases h
      simp [hlen, runAfter]
    · rw [if_neg hlen] at h
      cases hbad : (instrAtPc s k).registerOperands.find? fun c => decide (7 < c.toNat) with
      | some b =>
        cases h.symm.trans (badRegisterIndexIsReported _ s b hbad)
        simp [hlen, runAfter]
      | none =>
        have hidx : ∀ b ∈ (instrAtPc s k).registerOperands, Reg.ofByte b ≠ none := by
          intro b hb
          rw [Ne, ofByte_eq_none_iff]
          simpa using List.find?_eq_none.mp hbad b hb
        simpa [hlen, hrun] using exec_run_of_indices (by omega) hidx h

/-- Settles O18: the matrix read line by line. -/
theorem stepReportsTheFirstFault : Obligations.StepReportsTheFirstFault := by
  intro s t h
  rw [step_run h]
  cases stepFault s <;> rfl

end Sys2Proof.Proofs
end

section
/-!
PROOF. What every step keeps and how it moves the pc: the invariant (R40), put together from the flags a step leaves,
the memory it writes and the fault it reports, and the table of pc updates (R26).
-/

namespace Sys2Proof.Proofs

open Sys2Proof.Machine

/-! ## The reported records (R190, R192) -/

theorem mem_of_firstFault {l : List (Bool × FaultRec)} {r : FaultRec} (h : firstFault l = some r) : (true, r) ∈ l := by
  induction l with
  | nil => cases h
  | cons line l ih =>
    obtain ⟨holds, rec⟩ := line
    cases holds
    · exact .tail _ (ih h)
    · cases h
      exact .head l

/-- The address or index of each line that holds lies outside its valid range. -/
theorem faultMatrix_reportable (k : Kind) (s : State) :
    ∀ line ∈ faultMatrix k s, line.1 = true → line.2.reportable = true := by
  have hindex (b : Byte) (hb : 7 < b.toNat) : (FaultRec.address .regIndex s.pc b.toNat).reportable = true := by
    have := b.isLt
    simp only [FaultRec.reportable, Bool.and_eq_true, decide_eq_true_eq]
    omega
  simp only [faultMatrix, List.forall_mem_cons, List.not_mem_nil, Bool.and_eq_true, decide_eq_true_eq]
  exact ⟨fun _ => rfl, fun _ => rfl, fun h => hindex _ h.2, fun h => hindex _ h.2, fun _ => rfl, fun _ => rfl,
    fun _ => rfl, fun _ => rfl, fun _ => rfl, nofun⟩

theorem stepFault_reportable {s : State} {r : FaultRec} (h : stepFault s = some r) : r.reportable = true := by
  rw [stepFault] at h
  cases hk : decodeKind (s.memRead s.pc) with
  | none =>
    rw [hk] at h
    cases h
    simp [FaultRec.reportable, hk]
  | some k =>
    rw [hk] at h
    exact faultMatrix_reportable k s _ (mem_of_firstFault h) rfl

/-- A step that ends in a fault reports the first fault of the matrix. -/
theorem stepFault_of_faulted {s t : State} {r : FaultRec} (h : step s = .next t) (ht : t.run = .faulted r) :
    stepFault s = some r := by
  have hrun := (step_run h).symm.trans ht
  cases hf : stepFault s with
  | some r' =>
    rw [hf] at hrun
    cases hrun
    rfl
  | none =>
    rw [hf, runAfter] at hrun
    split at hrun <;> cases hrun

/-! ## The invariant (R40) -/

theorem step_flagLegal {s t : State} (hs : flagLegal s.fl = true) (h : step s = .next t) : flagLegal t.fl = true := by
  obtain hfl | hone := step_fl_cases h
  · rw [hfl, hs]
  · rw [flagLegal, hone, Bool.or_true]

theorem step_mem_wf {s t : State} (hs : Memory.wf s.mem) (h : step s = .next t) : Memory.wf t.mem := by
  obtain ⟨-, ⟨r, -, rfl⟩ | ⟨i, -, he⟩⟩ := step_eq_next h
  · exact hs
  · obtain hm | ⟨-, -, -, v, hm⟩ := exec_mem_cases he
    · exact hm ▸ hs
    · exact hm ▸ Memory.wf_write hs (s.sp - 1).isLt v

theorem step_runOk {s t : State} (h : step s = .next t) : t.runOk = true := by
  unfold State.runOk
  cases ht : t.run with
  | running => rfl
  | halted => rfl
  | faulted r =>
    obtain ⟨hat, hpc, -⟩ := step_precise h r ht
    simp [hat, hpc, stepFault_reportable (stepFault_of_faulted h ht)]

/-- Settles O4: a step keeps legal flags and a canonical memory, and a fault it reports is precise and reportable. -/
theorem stepKeepsInvariant : Obligations.StepKeepsInvariant := fun _ _ ⟨hfl, hmem, _⟩ h =>
  ⟨step_flagLegal hfl h, step_mem_wf hmem h, step_runOk h⟩

/-! ## The table of pc updates (R26, R28) -/

/-- An advance that is not faulted has not wrapped. -/
theorem advance_pc {len : Nat} {u : State} (h : (advance len u).failed = false) :
    (advance len u).pc.toNat = u.pc.toNat + len := by
  obtain ⟨hle, ha⟩ | ⟨-, ha⟩ := advance_cases len u
  · rw [ha, setPc_pc, BitVec.toNat_ofNat, Nat.mod_eq_of_lt (by omega)]
  · rw [ha] at h
    cases h

/-- The register named by the first operand byte, as the table reads it. -/
theorem target_of_ofByte {s : State} {a : Reg} (ha : Reg.ofByte s.opa = some a) :
    ((Reg.ofByte s.opa).map fun a => (s.x.get a).toNat).getD 0 = (s.reg a).toNat := by
  rw [ha]
  rfl

theorem jumpIf_pc {taken : Bool} {a : Reg} {s : State} (h : (jumpIf taken a s).failed = false) :
    (jumpIf taken a s).pc.toNat = if taken then (s.reg a).toNat else s.pc.toNat + 2 := by
  cases taken
  · exact advance_pc h
  · rfl

theorem flagIsEqual_iff (f : FlagBits) : flagIsEqual f = true ↔ f = 0b001 := beq_iff_eq

theorem haltPc_toNat (pc : Byte) : (haltPc pc).toNat = if pc.toNat = 255 then 255 else pc.toNat + 1 := by
  have hpc := pc.isLt
  by_cases h : pc.toNat = 255
  · simp [haltPc, h]
  · have hadd : (pc + 1).toNat = pc.toNat + 1 := pc_add_toNat 1 (by omega)
    rw [haltPc, if_pos (by omega), if_neg h, hadd]

/-- CALL's target, read after the decrement: for register 7 it is the new stack pointer (D16). -/
theorem pushed_reg_toNat {s : State} {a : Reg} (ha : Reg.ofByte s.opa = some a) (hsp : s.sp ≠ 0x00) :
    ((pushed s).reg a).toNat = if s.opa = 7 then (s.x.get .r7).toNat - 1 else (s.reg a).toNat := by
  by_cases h : a = .r7
  · have hreg : (pushed s).reg a = s.sp - 1 := by
      rw [h]
      exact reg_setReg_same _ _ _
    have hsucc : (s.sp - 1).toNat + 1 = (s.x.get .r7).toNat := sub_one_toNat_succ hsp
    rw [hreg, if_pos ((eq_seven_iff ha).mpr h)]
    omega
  · rw [if_neg (mt (eq_seven_iff ha).mp h)]
    exact congrArg BitVec.toNat (reg_setReg_other s _ _ h)

/-- An instruction that is not faulted leaves the pc of the table. -/
theorem exec_pc {k : Kind} {s t : State} (h : exec (instrAtPc s k) s = .next t) (hok : t.failed = false) :
    t.pc.toNat = pcTable k s := by
  cases k with
  | hlt =>
    rw [exec_hlt_cases h]
    exact haltPc_toNat s.pc
  | ldi =>
    obtain ⟨-, rfl⟩ | ⟨a, -, rfl⟩ := exec_ldi_cases h
    · cases hok
    · exact advance_pc hok
  | mul =>
    obtain ⟨b, -, -, rfl⟩ | ⟨a, b, -, -, rfl⟩ := exec_mul_cases h
    · cases hok
    · exact advance_pc hok
  | add =>
    obtain ⟨b, -, -, rfl⟩ | ⟨a, b, -, -, rfl⟩ := exec_add_cases h
    · cases hok
    · exact advance_pc hok
  | cmp =>
    obtain ⟨b, -, -, rfl⟩ | ⟨a, b, -, -, rfl⟩ := exec_cmp_cases h
    · cases hok
    · exact advance_pc hok
  | prn =>
    obtain ⟨-, rfl⟩ | ⟨a, -, rfl⟩ := exec_prn_cases h
    · cases hok
    · exact advance_pc hok
  | push =>
    obtain ⟨-, rfl⟩ | ⟨-, rfl⟩ | ⟨a, -, -, rfl⟩ := exec_push_cases h
    · cases hok
    · cases hok
    · exact advance_pc hok
  | pop =>
    obtain ⟨-, rfl⟩ | ⟨a, -, ⟨-, rfl⟩ | ⟨-, rfl⟩⟩ := exec_pop_cases h
    · cases hok
    · cases hok
    · exact advance_pc hok
  | call =>
    obtain ⟨-, rfl⟩ | ⟨-, rfl⟩ | ⟨-, -, rfl⟩ | ⟨a, ha, -, hsp, rfl⟩ := exec_call_cases h
    · cases hok
    · cases hok
    · cases hok
    · rw [pcTable, target_of_ofByte ha]
      exact pushed_reg_toNat ha hsp
  | ret =>
    obtain ⟨-, rfl⟩ | ⟨-, rfl⟩ := exec_ret_cases h
    · cases hok
    · rfl
  | jmp =>
    obtain ⟨-, rfl⟩ | ⟨a, ha, rfl⟩ := exec_jmp_cases h
    · cases hok
    · exact (target_of_ofByte ha).symm
  | jeq =>
    obtain ⟨-, rfl⟩ | ⟨a, ha, rfl⟩ := exec_jeq_cases h
    · cases hok
    · rw [jumpIf_pc hok]
      simp only [pcTable, target_of_ofByte ha, flagIsEqual_iff]
  | jne =>
    obtain ⟨-, rfl⟩ | ⟨a, ha, rfl⟩ := exec_jne_cases h
    · cases hok
    · rw [jumpIf_pc hok]
      simp only [pcTable, target_of_ofByte ha, Bool.not_eq_true', ← Bool.not_eq_true, flagIsEqual_iff, ite_not]

/-- Settles O21: a step without a fault executed the instruction of the kind at the pc. -/
theorem pcAfterEveryStep : Obligations.PcAfterEveryStep := by
  intro s t k hop h hok
  rw [step_of_value (running_of_step h) hop] at h
  split at h
  · cases h
    cases hok
  · exact exec_pc h hok

end Sys2Proof.Proofs
end

section
/-!
PROOF. The eight blocks (R110 to R119) compute the step: the 9-bit sums and borrows are the bounds that the
architectural rules test, and for each kind the commit of the blocks is the state that the instruction's execution
gives.
-/

namespace Sys2Proof.Proofs

open Sys2Proof.Machine

/-! ## Nine-bit sums (R110, R114, R116) -/

theorem pcPlus_toNat (pc : Byte) (k : BitVec 2) : (Block.pcPlus pc k).toNat = pc.toNat + k.toNat := by
  have := pc.isLt
  have := k.isLt
  simp [Block.pcPlus]
  omega

/-- Bit 8 of a 9-bit word is its carry out of a byte. -/
theorem getLsbD_eight (w : BitVec 9) : w.getLsbD 8 = decide (256 ≤ w.toNat) := BitVec.msb_eq_decide w

theorem pcPlus_carry (pc : Byte) (k : BitVec 2) :
    (Block.pcPlus pc k).getLsbD 8 = decide (256 ≤ pc.toNat + k.toNat) := by
  rw [getLsbD_eight, pcPlus_toNat]

theorem pcPlus_low (pc : Byte) (k : BitVec 2) :
    (Block.pcPlus pc k).extractLsb' 0 8 = pc + BitVec.ofNat 8 k.toNat := by
  apply BitVec.eq_of_toNat_eq
  simp [pcPlus_toNat]

theorem decrement_borrow (sp : Byte) : (sp.zeroExtend 9 - 1).getLsbD 8 = decide (sp = 0x00) := by
  rw [getLsbD_eight, decide_eq_decide]
  bv_omega

theorem decrement_low (sp : Byte) : (sp.zeroExtend 9 - 1).extractLsb' 0 8 = sp - 1 := by
  apply BitVec.eq_of_toNat_eq
  simp
  omega

theorem increment_carry (sp : Byte) : (sp.zeroExtend 9 + 1).getLsbD 8 = decide (sp = 0xFF) := by
  rw [getLsbD_eight, decide_eq_decide]
  bv_omega

theorem increment_low (sp : Byte) : (sp.zeroExtend 9 + 1).extractLsb' 0 8 = sp + 1 := by
  apply BitVec.eq_of_toNat_eq
  simp

/-! ## The register ports (R112) -/

theorem ofPort_of_ofByte {opa : Byte} {a : Reg} (ha : Reg.ofByte opa = some a) :
    Reg.ofPort (opa.extractLsb' 0 3) = a := by
  rw [← toByte_of_ofByte ha]
  cases a <;> rfl

theorem readPort_of_ofByte {opa : Byte} {a : Reg} (ha : Reg.ofByte opa = some a) (s : State) :
    Block.readPort s.x (opa.extractLsb' 0 3) = s.reg a := by
  rw [Block.readPort, ofPort_of_ofByte ha]
  rfl

/-- A read port that reads register 7 anew reads the register file after the decrement (R116, R117). -/
theorem readWithSp_of_ofByte {opa : Byte} {a : Reg} (ha : Reg.ofByte opa = some a) (s : State) :
    Block.readWithSp (opa.extractLsb' 0 3) (s.reg a) (s.sp - 1) = (pushed s).reg a := by
  rw [Block.readWithSp, ofPort_of_ofByte ha]
  by_cases h : a = Reg.sp
  · rw [if_pos h, h]
    exact (reg_setReg_same s Reg.sp _).symm
  · rw [if_neg h]
    exact (reg_setReg_other s _ _ h).symm

/-! ## The stack block (R116) -/

theorem stackFsm_push (i : FsmIn) :
    Block.stackFsm (Block.control .push) i =
      { sp := i.sp - 1, spWe := true, store := some (i.sp - 1, Block.readWithSp i.ra i.va (i.sp - 1)),
        stackLow := decide (i.sp = 0x00) } := by
  rw [← decrement_low, ← decrement_borrow]
  rfl

theorem stackFsm_call (i : FsmIn) :
    Block.stackFsm (Block.control .call) i =
      { sp := i.sp - 1, spWe := true, store := some (i.sp - 1, i.pcPlusLen.extractLsb' 0 8),
        stackLow := decide (i.sp = 0x00) } := by
  rw [← decrement_low, ← decrement_borrow]
  rfl

/-- The block's base of POP's increment: the popped byte where register 7 is the destination (R162). -/
def fsmPopBase (i : FsmIn) : Byte := if Reg.ofPort i.ra = Reg.sp then Memory.read i.mem i.sp.toNat else i.sp

theorem fsmPopBase_eq (s : State) (ra : BitVec 3) (va : Byte) (sum : BitVec 9) :
    fsmPopBase { sp := s.sp, ra := ra, va := va, pcPlusLen := sum, mem := s.mem } = popBase (Reg.ofPort ra) s := rfl

theorem stackFsm_pop (i : FsmIn) :
    Block.stackFsm (Block.control .pop) i =
      { sp := fsmPopBase i + 1, spWe := true, popData := some (Memory.read i.mem i.sp.toNat),
        stackHigh := decide (fsmPopBase i = 0xFF) } := by
  rw [← increment_low, ← increment_carry]
  simp only [fsmPopBase]
  by_cases h : Reg.ofPort i.ra = Reg.sp <;>
    simp [Block.stackFsm, Block.fsmNext, Block.fsmAct, Block.control, h]

theorem stackFsm_ret (i : FsmIn) :
    Block.stackFsm (Block.control .ret) i =
      { sp := i.sp + 1, spWe := true, popData := some (Memory.read i.mem i.sp.toNat),
        stackHigh := decide (i.sp = 0xFF) } := by
  rw [← increment_low, ← increment_carry]
  rfl

/-! ## The commit of the pc and of the run state (R106, R114) -/

/-- What the pc counter commits beside an instruction's other effects, when the instruction has no pc of its own. -/
def sequentialCommit (c : ControlWord) (u : State) : State :=
  { u with
    pc := Block.pcCounter u.pc false 0 (Block.pcPlus u.pc c.len)
    run := if Block.nextPcFault c false (Block.pcPlus u.pc c.len) then
        .faulted (addressFault u .nextPc (Block.pcPlus u.pc c.len).toNat) else u.run }

theorem sequentialCommit_eq_advance {c : ControlWord} (hc : c.haltReq = false) (u : State) :
    sequentialCommit c u = advance c.len.toNat u := by
  simp only [sequentialCommit, Block.pcCounter, Block.nextPcFault, hc, pcPlus_carry, pcPlus_low, pcPlus_toNat]
  by_cases h : u.pc.toNat + c.len.toNat ≤ 255
  · have hlt : ¬ 256 ≤ u.pc.toNat + c.len.toNat := by omega
    simp [advance_of_le h, hlt, State.setPc]
  · have hge : 256 ≤ u.pc.toNat + c.len.toNat := by omega
    simp [advance_of_lt (Nat.not_le.mp h), hge, raise, addressFault]

theorem pcCounter_hlt (pc : Byte) : Block.pcCounter pc false 0 (Block.pcPlus pc 1) = haltPc pc := by
  have hpc := pc.isLt
  rw [Block.pcCounter, pcPlus_carry, pcPlus_low]
  by_cases h : pc.toNat < 255
  · have hlt : ¬ 256 ≤ pc.toNat + 1 := by omega
    simp [haltPc, h, hlt]
  · have hge : 256 ≤ pc.toNat + 1 := by omega
    simp [haltPc, h, hge]

/-- An instruction that sets the pc itself requests no `NEXT_PC`. -/
theorem nextPcFault_of_set (c : ControlWord) (sum : BitVec 9) : Block.nextPcFault c true sum = false := by
  simp [Block.nextPcFault]

/-! ## The commit of each kind -/

section

variable {opa opb : Byte} {a b : Reg} {s : State}

theorem exec_hlt_eq_blocks : exec .hlt s = .next (Block.execute s (Block.control .hlt) opa opb) := by
  rw [exec, execHlt, ← pcCounter_hlt]
  rfl

/-- An instruction that ends in the advance agrees with the blocks if its effect does. -/
theorem exec_eq_blocks_of_advance {i : Instr} {c : ControlWord} {u : State}
    (hexec : exec i s = .next (advance c.len.toNat u)) (hc : c.haltReq = false)
    (hcommit : sequentialCommit c u = Block.execute s c opa opb) : exec i s = .next (Block.execute s c opa opb) := by
  rw [hexec, ← sequentialCommit_eq_advance hc, hcommit]

theorem exec_ldi_eq_blocks (hidx : Block.regIndexFault (Block.control .ldi) opa opb = none)
    (ha : Reg.ofByte opa = some a) :
    exec (.ldi opa opb) s = .next (Block.execute s (Block.control .ldi) opa opb) := by
  obtain rfl := ofPort_of_ofByte ha
  refine exec_eq_blocks_of_advance (exec_ldi_of_some ha opb s) rfl ?_
  rw [Block.execute, Block.faultRequest, hidx]
  rfl

theorem exec_prn_eq_blocks (hidx : Block.regIndexFault (Block.control .prn) opa opb = none)
    (ha : Reg.ofByte opa = some a) :
    exec (.prn opa) s = .next (Block.execute s (Block.control .prn) opa opb) := by
  obtain rfl := ofPort_of_ofByte ha
  refine exec_eq_blocks_of_advance (exec_prn_of_some ha s) rfl ?_
  rw [Block.execute, Block.faultRequest, hidx]
  rfl

theorem exec_mul_eq_blocks (hidx : Block.regIndexFault (Block.control .mul) opa opb = none)
    (ha : Reg.ofByte opa = some a) (hb : Reg.ofByte opb = some b) :
    exec (.mul opa opb) s = .next (Block.execute s (Block.control .mul) opa opb) := by
  obtain rfl := ofPort_of_ofByte ha
  obtain rfl := ofPort_of_ofByte hb
  refine exec_eq_blocks_of_advance (withRegs_of_some ha hb s _) rfl ?_
  rw [Block.execute, Block.faultRequest, hidx]
  rfl

theorem exec_add_eq_blocks (hidx : Block.regIndexFault (Block.control .add) opa opb = none)
    (ha : Reg.ofByte opa = some a) (hb : Reg.ofByte opb = some b) :
    exec (.add opa opb) s = .next (Block.execute s (Block.control .add) opa opb) := by
  obtain rfl := ofPort_of_ofByte ha
  obtain rfl := ofPort_of_ofByte hb
  refine exec_eq_blocks_of_advance (withRegs_of_some ha hb s _) rfl ?_
  rw [Block.execute, Block.faultRequest, hidx]
  rfl

theorem exec_cmp_eq_blocks (hidx : Block.regIndexFault (Block.control .cmp) opa opb = none)
    (ha : Reg.ofByte opa = some a) (hb : Reg.ofByte opb = some b) :
    exec (.cmp opa opb) s = .next (Block.execute s (Block.control .cmp) opa opb) := by
  obtain rfl := ofPort_of_ofByte ha
  obtain rfl := ofPort_of_ofByte hb
  refine exec_eq_blocks_of_advance (withRegs_of_some ha hb s _) rfl ?_
  rw [Block.execute, Block.faultRequest, hidx]
  rfl

theorem exec_push_eq_blocks (hidx : Block.regIndexFault (Block.control .push) opa opb = none)
    (ha : Reg.ofByte opa = some a) :
    exec (.push opa) s = .next (Block.execute s (Block.control .push) opa opb) := by
  rw [Block.execute, Block.faultRequest, hidx, stackFsm_push]
  by_cases hsp : s.sp = 0x00
  · rw [exec_push_of_sp_eq ha hsp]
    simp only [hsp]
    rfl
  · rw [exec_push_of_sp_ne ha hsp, stackStore_pushed, ← readWithSp_of_ofByte ha]
    obtain rfl := ofPort_of_ofByte ha
    refine congrArg _ ((sequentialCommit_eq_advance (c := Block.control .push) rfl _).symm.trans ?_)
    simp only [decide_eq_false hsp]
    rfl

theorem exec_pop_eq_blocks (hidx : Block.regIndexFault (Block.control .pop) opa opb = none)
    (ha : Reg.ofByte opa = some a) :
    exec (.pop opa) s = .next (Block.execute s (Block.control .pop) opa opb) := by
  have hport := ofPort_of_ofByte ha
  subst hport
  rw [Block.execute, Block.faultRequest, hidx, stackFsm_pop, fsmPopBase_eq]
  by_cases hbase : popBase (Reg.ofPort (opa.extractLsb' 0 3)) s = 0xFF
  · rw [exec_pop_of_base_eq ha hbase]
    simp only [hbase]
    rfl
  · rw [exec_pop_of_base_ne ha hbase]
    refine congrArg _ ((sequentialCommit_eq_advance (c := Block.control .pop) rfl _).symm.trans ?_)
    simp only [decide_eq_false hbase]
    rfl

theorem exec_call_eq_blocks (hidx : Block.regIndexFault (Block.control .call) opa opb = none)
    (ha : Reg.ofByte opa = some a) :
    exec (.call opa) s = .next (Block.execute s (Block.control .call) opa opb) := by
  have hcarry : (Block.pcPlus s.pc (Block.control .call).len).getLsbD 8 = decide (255 < s.pc.toNat + 2) :=
    pcPlus_carry s.pc 2
  have hset : Block.pcSet (Block.control .call) s.fl = true := rfl
  rw [Block.execute, Block.faultRequest, hidx, stackFsm_call, hcarry, hset, nextPcFault_of_set]
  by_cases hpc : 255 < s.pc.toNat + 2
  · rw [exec_call_of_pc_gt ha hpc, decide_eq_true hpc, pcPlus_toNat]
    rfl
  · have hle : s.pc.toNat + 2 ≤ 255 := Nat.not_lt.mp hpc
    rw [decide_eq_false hpc]
    by_cases hsp : s.sp = 0x00
    · rw [exec_call_of_sp_eq ha hle hsp]
      simp only [hsp]
      rfl
    · rw [exec_call_of_sp_ne ha hle hsp, stackStore_pushed, ← readWithSp_of_ofByte ha]
      obtain rfl := ofPort_of_ofByte ha
      simp only [decide_eq_false hsp, pcPlus_low]
      rfl

theorem exec_ret_eq_blocks : exec .ret s = .next (Block.execute s (Block.control .ret) opa opb) := by
  have hset : Block.pcSet (Block.control .ret) s.fl = true := rfl
  have hidx : Block.regIndexFault (Block.control .ret) opa opb = none := rfl
  rw [Block.execute, Block.faultRequest, hidx, stackFsm_ret, hset, nextPcFault_of_set]
  by_cases hsp : s.sp = 0xFF
  · rw [exec_ret_of_sp_eq hsp]
    simp only [hsp]
    rfl
  · rw [exec_ret_of_sp_ne hsp]
    simp only [decide_eq_false hsp]
    rfl

theorem exec_jmp_eq_blocks (hidx : Block.regIndexFault (Block.control .jmp) opa opb = none)
    (ha : Reg.ofByte opa = some a) :
    exec (.jmp opa) s = .next (Block.execute s (Block.control .jmp) opa opb) := by
  have hset : Block.pcSet (Block.control .jmp) s.fl = true := rfl
  rw [exec_jmp_of_some ha, Block.execute, Block.faultRequest, hidx, hset, nextPcFault_of_set]
  obtain rfl := ofPort_of_ofByte ha
  rfl

theorem exec_jeq_eq_blocks (hidx : Block.regIndexFault (Block.control .jeq) opa opb = none)
    (ha : Reg.ofByte opa = some a) :
    exec (.jeq opa) s = .next (Block.execute s (Block.control .jeq) opa opb) := by
  have hset : Block.pcSet (Block.control .jeq) s.fl = decide (s.fl = 0b001) := beq_true _
  rw [exec_jeq_of_some ha, Block.execute, Block.faultRequest, hidx, hset]
  obtain rfl := ofPort_of_ofByte ha
  by_cases hfl : s.fl = 0b001
  · rw [if_pos hfl, decide_eq_true hfl, nextPcFault_of_set]
    rfl
  · rw [if_neg hfl, decide_eq_false hfl]
    exact congrArg _ (sequentialCommit_eq_advance (c := Block.control .jeq) rfl s).symm

theorem exec_jne_eq_blocks (hidx : Block.regIndexFault (Block.control .jne) opa opb = none)
    (ha : Reg.ofByte opa = some a) :
    exec (.jne opa) s = .next (Block.execute s (Block.control .jne) opa opb) := by
  have hset : Block.pcSet (Block.control .jne) s.fl = !decide (s.fl = 0b001) := beq_false _
  rw [exec_jne_of_some ha, Block.execute, Block.faultRequest, hidx, hset]
  obtain rfl := ofPort_of_ofByte ha
  by_cases hfl : s.fl = 0b001
  · rw [if_pos hfl, decide_eq_true hfl]
    exact congrArg _ (sequentialCommit_eq_advance (c := Block.control .jne) rfl s).symm
  · rw [if_neg hfl, decide_eq_false hfl, Bool.not_false, nextPcFault_of_set]
    rfl

end

/-! ## The register indices and the commit of every kind -/

/-- The decoder's index fault is the first byte above 7 among the register operands (R104, R111). -/
theorem regIndexFault_eq_find? (k : Kind) (opa opb : Byte) :
    Block.regIndexFault (Block.control k) opa opb =
      (instrOf k opa opb).registerOperands.find? fun c => decide (7 < c.toNat) := by
  cases k with
  | hlt | ret => rfl
  | ldi | prn | push | pop | call | jmp | jeq | jne =>
    by_cases ha : 7 < opa.toNat <;>
      simp [Block.regIndexFault, Block.control, instrOf, Kind.shape, Instr.registerOperands, ha]
  | mul | add | cmp =>
    by_cases ha : 7 < opa.toNat <;> by_cases hb : 7 < opb.toNat <;>
      simp [Block.regIndexFault, Block.control, instrOf, Kind.shape, Instr.registerOperands, ha, hb]

theorem execute_of_regIndexFault {s : State} {c : ControlWord} {opa opb b : Byte}
    (h : Block.regIndexFault c opa opb = some b) :
    Block.execute s c opa opb = raise (.address .regIndex s.pc b.toNat) s := by
  rw [Block.execute, Block.faultRequest, h]
  rfl

theorem exists_ofByte_of_find? {l : List Byte} {b : Byte} (h : (l.find? fun c => decide (7 < c.toNat)) = none)
    (hb : b ∈ l) : ∃ a, Reg.ofByte b = some a :=
  exists_ofByte (by simpa using List.find?_eq_none.mp h b hb)

/-- The blocks commit what the execution of the instruction gives, for all operand bytes. -/
theorem exec_eq_blocks (k : Kind) (opa opb : Byte) (s : State) :
    exec (instrOf k opa opb) s = .next (Block.execute s (Block.control k) opa opb) := by
  cases hidx : Block.regIndexFault (Block.control k) opa opb with
  | some b =>
    rw [execute_of_regIndexFault hidx]
    exact badRegisterIndexIsReported _ s b (regIndexFault_eq_find? k opa opb ▸ hidx)
  | none =>
    have hreg {b : Byte} (hb : b ∈ (instrOf k opa opb).registerOperands) : ∃ a, Reg.ofByte b = some a :=
      exists_ofByte_of_find? (regIndexFault_eq_find? k opa opb ▸ hidx) hb
    cases k with
    | hlt => exact exec_hlt_eq_blocks
    | ldi => obtain ⟨a, ha⟩ := hreg (.head _); exact exec_ldi_eq_blocks hidx ha
    | prn => obtain ⟨a, ha⟩ := hreg (.head _); exact exec_prn_eq_blocks hidx ha
    | mul =>
      obtain ⟨⟨a, ha⟩, ⟨b, hb⟩⟩ := And.intro (hreg (.head _)) (hreg (.tail _ (.head _)))
      exact exec_mul_eq_blocks hidx ha hb
    | add =>
      obtain ⟨⟨a, ha⟩, ⟨b, hb⟩⟩ := And.intro (hreg (.head _)) (hreg (.tail _ (.head _)))
      exact exec_add_eq_blocks hidx ha hb
    | cmp =>
      obtain ⟨⟨a, ha⟩, ⟨b, hb⟩⟩ := And.intro (hreg (.head _)) (hreg (.tail _ (.head _)))
      exact exec_cmp_eq_blocks hidx ha hb
    | push => obtain ⟨a, ha⟩ := hreg (.head _); exact exec_push_eq_blocks hidx ha
    | pop => obtain ⟨a, ha⟩ := hreg (.head _); exact exec_pop_eq_blocks hidx ha
    | call => obtain ⟨a, ha⟩ := hreg (.head _); exact exec_call_eq_blocks hidx ha
    | ret => exact exec_ret_eq_blocks
    | jmp => obtain ⟨a, ha⟩ := hreg (.head _); exact exec_jmp_eq_blocks hidx ha
    | jeq => obtain ⟨a, ha⟩ := hreg (.head _); exact exec_jeq_eq_blocks hidx ha
    | jne => obtain ⟨a, ha⟩ := hreg (.head _); exact exec_jne_eq_blocks hidx ha

/-! ## The operand latches (R37, R103) -/

/-- The latch of the first operand byte: its old content if the kind has no operand, else the byte after the pc. -/
theorem operandLatch_one (s : State) (k : Kind) (latch : Byte) :
    Block.operandLatch s (Block.control k) 1 latch =
      if k.length < 2 then some latch else if 256 ≤ s.pc.toNat + 1 then none else some s.opa := by
  have hused : (Block.control k).nOperands < 1 ↔ k.length < 2 := by cases k <;> decide
  simp only [Block.operandLatch, hused, pcPlus_carry, pcPlus_low, decide_eq_true_eq]
  rfl

theorem operandLatch_two (s : State) (k : Kind) (latch : Byte) :
    Block.operandLatch s (Block.control k) 2 latch =
      if k.length < 3 then some latch else if 256 ≤ s.pc.toNat + 2 then none else some s.opb := by
  have hused : (Block.control k).nOperands < 2 ↔ k.length < 3 := by cases k <;> decide
  simp only [Block.operandLatch, hused, pcPlus_carry, pcPlus_low, decide_eq_true_eq]
  rfl

/-- A kind without operands is its instruction whatever the latches hold. -/
theorem instrOf_of_length_one {k : Kind} (h : k.length = 1) (a b a' b' : Byte) : instrOf k a b = instrOf k a' b' := by
  cases k with
  | hlt | ret => rfl
  | ldi | prn | mul | add | cmp | push | pop | call | jmp | jeq | jne => exact absurd h (by decide)

/-- A kind with one operand is its instruction whatever the second latch holds. -/
theorem instrOf_of_length_two {k : Kind} (h : k.length = 2) (a b b' : Byte) : instrOf k a b = instrOf k a b' := by
  cases k with
  | prn | push | pop | call | jmp | jeq | jne => rfl
  | hlt | ldi | mul | add | cmp | ret => exact absurd h (by decide)

theorem length_cases (k : Kind) : k.length = 1 ∨ k.length = 2 ∨ k.length = 3 := by
  cases k <;> decide

/-- The record of a missing operand byte at address 256, from the 9-bit sum. -/
theorem operandFetch_of_pcPlus {s : State} {n : BitVec 2} (h : s.pc.toNat + n.toNat = 256) :
    addressFault s .operandFetch (Block.pcPlus s.pc n).toNat = .address .operandFetch s.pc 256 := by
  rw [pcPlus_toNat, h]
  rfl

/-- The blocks' step at an opcode byte: a missing byte is reported as in the architectural step, and a latch that the
kind does not use is no part of its instruction. -/
theorem blockStep_of_value {s : State} {k : Kind} (hrun : s.run = .running) (hop : s.memRead s.pc = Config.OP.value k)
    (latchA latchB : Byte) :
    Block.step latchA latchB s =
      if 256 < s.pc.toNat + k.length then .next (raise (.address .operandFetch s.pc 256) s)
      else exec (instrAtPc s k) s := by
  have hpc := s.pc.isLt
  have hstop : stopped s = none := by rw [stopped, hrun]
  rw [Block.step, hstop]
  simp only [(decodeKind_eq_some_iff _ k).mpr hop, operandLatch_one, operandLatch_two]
  obtain h | h | h := length_cases k
  · have hexec : exec (instrAtPc s k) s = .next (Block.execute s (Block.control k) latchA latchB) := by
      rw [instrAtPc, instrOf_of_length_one h _ _ latchA latchB, exec_eq_blocks]
    have hfit : ¬ 256 < s.pc.toNat + 1 := by omega
    simp [h, hexec, hfit]
  · have hexec : exec (instrAtPc s k) s = .next (Block.execute s (Block.control k) s.opa latchB) := by
      rw [instrAtPc, instrOf_of_length_two h _ _ latchB, exec_eq_blocks]
    have hmiss : 256 < s.pc.toNat + 2 ↔ 256 ≤ s.pc.toNat + 1 := by omega
    by_cases hA : s.pc.toNat + 1 = 256
    · simp [h, hmiss, hA, operandFetch_of_pcPlus (n := 1#2) hA]
    · have hltA : ¬ 256 ≤ s.pc.toNat + 1 := by omega
      simp [h, hmiss, hltA, hexec]
  · have hexec : exec (instrAtPc s k) s = .next (Block.execute s (Block.control k) s.opa s.opb) :=
      exec_eq_blocks k _ _ s
    have hmiss : 256 < s.pc.toNat + 3 ↔ 256 ≤ s.pc.toNat + 2 := by omega
    by_cases hA : s.pc.toNat + 1 = 256
    · have hB : 256 ≤ s.pc.toNat + 2 := by omega
      simp [h, hmiss, hA, hB, operandFetch_of_pcPlus (n := 1#2) hA]
    · have hltA : ¬ 256 ≤ s.pc.toNat + 1 := by omega
      by_cases hB : s.pc.toNat + 2 = 256
      · simp [h, hmiss, hltA, hB, operandFetch_of_pcPlus (n := 2#2) hB]
      · have hltB : ¬ 256 ≤ s.pc.toNat + 2 := by omega
        simp [h, hmiss, hltA, hltB, hexec]

theorem running_of_stopped_eq_none {s : State} (h : stopped s = none) : s.run = .running := by
  rw [stopped] at h
  cases hr : s.run with
  | running => rfl
  | halted => rw [hr] at h; cases h
  | faulted r => rw [hr] at h; cases h

/-- Settles O22: the two steps agree on the terminal states, on a byte that is no opcode, and kind by kind. -/
theorem blocksComputeTheStep : Obligations.BlocksComputeTheStep := by
  intro latchA latchB s
  cases hstop : stopped s with
  | some f => rw [Block.step, step, hstop]
  | none =>
    have hrun := running_of_stopped_eq_none hstop
    cases hk : decodeKind (s.memRead s.pc) with
    | none =>
      rw [step_of_decodeKind_none hrun hk, Block.step, hstop]
      simp only [hk]
    | some k =>
      have hop := (decodeKind_eq_some_iff _ _).mp hk
      rw [step_of_value hrun hop, blockStep_of_value hrun hop]

end Sys2Proof.Proofs
end
